-- ==== Sys2Proof/Word.lean ====
section
/-! DEFINITION. The word and the byte of the machine (spec/00_scope.md R5, R8). -/

namespace Sys2Proof

/-- A 16-bit machine word: a register, a memory cell, an address (R5, R8, R50). -/
abbrev Word := BitVec 16

/-- One console character, and either half of a word (R200; 92_eei_decisions.md D11). -/
abbrev Byte := BitVec 8

end Sys2Proof
end

