-- ==== Sys2Proof/Syntax.lean ====
section
/-! DEFINITION. The instructions as data: one constructor of `Instr` per row of spec/opcode_table.json,
with the operand fields of spec/30_encoding.md R83 to R94. -/

namespace Sys2Proof

/-- The eight general registers a 3-bit register field names (R20, R83). -/
inductive Reg where
  | r0 | r1 | r2 | r3 | r4 | r5 | r6 | r7
  deriving DecidableEq, Repr

/-- The closed enumeration of the sixteen opcodes (R81, R120). -/
inductive Opcode where
  | br | add | ld | st | jsr | and | ldr | str | rti | not | ldi | sti | jmp | res | lea | trap
  deriving DecidableEq, Repr

/-- What the trap vector decoder selects (R203): six service routines, or `invalid`. -/
inductive TrapRoutine where
  | getc | out | puts | inp | putsp | halt | invalid
  deriving DecidableEq, Repr

/-- The instructions. Offsets and immediates are the raw fields of the word; their sign extension is an
operand form (Machine/Operands.lean). Bits a format marks `x` are not kept, except the twelve ignored bits
of RTI and RES, which their error record repeats (R240, R241, R253).

`jmp` and `trap` are BASE rows of the table; `ret` and the seven rows after `trap` are the REFINEMENT rows
that narrow them (spec/INDEX.md, R102). -/
inductive Instr where
  /-- ADD, register mode (R84, R141). -/
  | add (dr sr1 sr2 : Reg)
  /-- ADD, immediate mode (R85, R142). -/
  | addImm (dr sr1 : Reg) (imm5 : BitVec 5)
  /-- AND, register mode (R84, R143). -/
  | and (dr sr1 sr2 : Reg)
  /-- AND, immediate mode (R85, R144). -/
  | andImm (dr sr1 : Reg) (imm5 : BitVec 5)
  /-- NOT (R86, R145). -/
  | not (dr sr : Reg)
  /-- BR with its condition mask, bit 2 = n, bit 1 = z, bit 0 = p (R87, R150). -/
  | br (nzp : BitVec 3) (off9 : BitVec 9)
  /-- JMP, the base row (R88, R151). -/
  | jmp (base : Reg)
  /-- RET: JMP with BaseR = 7 (R88, R152). -/
  | ret
  /-- JSR, PC-relative (R89, R153). -/
  | jsr (off11 : BitVec 11)
  /-- JSRR, through a register (R90, R154). -/
  | jsrr (base : Reg)
  /-- LD (R91, R170). -/
  | ld (dr : Reg) (off9 : BitVec 9)
  /-- LDI (R91, R171). -/
  | ldi (dr : Reg) (off9 : BitVec 9)
  /-- LDR (R92, R172). -/
  | ldr (dr base : Reg) (off6 : BitVec 6)
  /-- LEA (R91, R173). -/
  | lea (dr : Reg) (off9 : BitVec 9)
  /-- ST (R91, R174). -/
  | st (sr : Reg) (off9 : BitVec 9)
  /-- STI (R91, R175). -/
  | sti (sr : Reg) (off9 : BitVec 9)
  /-- STR (R92, R176). -/
  | str (sr base : Reg) (off6 : BitVec 6)
  /-- TRAP, the base row, with any vector (R93, R204). -/
  | trap (vect8 : BitVec 8)
  /-- TRAP 0x20 (R205). -/
  | getc
  /-- TRAP 0x21 (R206). -/
  | out
  /-- TRAP 0x22 (R207). -/
  | puts
  /-- TRAP 0x23, the table's IN (R208). -/
  | inp
  /-- TRAP 0x24 (R209). -/
  | putsp
  /-- TRAP 0x25 (R210). -/
  | halt
  /-- TRAP with a vector outside 0x20 to 0x25 (R99, R211). -/
  | trapInvalidVector (vect8 : BitVec 8)
  /-- RTI, always invalid, with the ignored bits ir[11:0] (R94, R240). -/
  | rti (low12 : BitVec 12)
  /-- RES, always invalid, with the ignored bits ir[11:0] (R94, R241). -/
  | res (low12 : BitVec 12)
  deriving DecidableEq, Repr

end Sys2Proof
end

