-- ==== Sys2Proof/Config.lean ====
section
/-! DEFINITION. What an implementation fixes: the named parameters of spec/00_scope.md R6
(92_eei_decisions.md D3, D4, D10, D13, D14, D17). -/

namespace Sys2Proof

/-- The open parameters that an instruction consults (R6). They are constant while the machine runs. -/
structure Params where
  /-- JSRR reads BaseR before it writes the link (D3); false is the document's order. -/
  jsrrBaseReadBeforeLink : Bool
  /-- PUTSP emits a zero high byte of a cell that is not the final one (D10). -/
  putspEmitZeroHighNonfinal : Bool
  /-- The bytes of the halt notice (D13). -/
  haltNotice : List Byte
  /-- The bytes of the IN prompt (D14). -/
  inPrompt : List Byte
  deriving DecidableEq, Repr

/-- A loader input: an origin and the words stored from it on (R14, R294). -/
structure Image where
  origin : Word
  words : List Word
  deriving DecidableEq, Repr

namespace Config

/-- The halt notice is OPEN: the source gives no text (R6, D13). A value nothing constrains. -/
opaque haltNotice : List Byte

/-- The IN prompt is OPEN: the source gives no text (R6, D14). A value nothing constrains. -/
opaque inPrompt : List Byte

/-- The parameters at their defaults (R6); the two texts have none and stay open. -/
def params : Params where
  jsrrBaseReadBeforeLink := false
  putspEmitZeroHighNonfinal := false
  haltNotice := haltNotice
  inPrompt := inPrompt

/-- `gpr_reset`, default all 0x0000 (R6, R32; D4). DESIGN CHOICE, notes/assumptions/4: unsafe, since the
source says "unspecified/zero". -/
def gprReset : Reg → Word := fun _ => 0#16

/-- `image_list`, default empty (R6; D17). -/
def imageList : List Image := []

/-- The reset program counter (R5, R32). -/
def resetPc : Word := 0x3000#16

end Config

end Sys2Proof
end

