-- ==== Sys2Proof/Machine/State.lean ====
section
/-! DEFINITION. The state of the machine as plain data (spec/10_state.md), its reset value, and the reasons a
step can stop. -/

namespace Sys2Proof.Machine

/-- The eight general registers, 16 bits each; none is hardwired, aliased or banked (R20). -/
structure Regs where
  r0 : Word
  r1 : Word
  r2 : Word
  r3 : Word
  r4 : Word
  r5 : Word
  r6 : Word
  r7 : Word
  deriving DecidableEq, Repr

/-- The condition-flag register: exactly one of N, Z, P (R23). Its bits are `Cond.bits` in Flags.lean. -/
inductive Cond where
  | n | z | p
  deriving DecidableEq, Repr

/-- The run state (R26). -/
inductive RunState where
  | running | halted
  deriving DecidableEq, Repr

/-- The error records (R27, R250). `addr` is the fetch address of the instruction that raised the error. -/
inductive ErrorRecord where
  | invalidOpcode (addr : Word) (opcode : BitVec 4) (word : Word)
  | invalidTrap (addr : Word) (vector : BitVec 8)
  | consoleIOError (addr : Word) (vector : BitVec 8)
  deriving DecidableEq, Repr

/-- The host's answer to one request for a console byte (R202): a byte, or "end of input or failure", which
the spec does not tell apart (D12). -/
inductive ConsoleAnswer where
  | byte (b : Byte)
  | failure
  deriving DecidableEq, Repr

/-- The service routines that a TRAP step can be left unfinished in: GETC and IN while they wait for the
console (the hold of R126, R202), PUTS and PUTSP between two laps of a memory that holds no zero cell (R207,
R209: the routine never ends). -/
inductive Suspended where
  | getc | inp | puts | putsp
  deriving DecidableEq, Repr

/-- A TRAP step that is not finished (R126; notes/assumptions/6, 7): its routine, and the fetch address its error record will name. -/
structure Pending where
  routine : Suspended
  addr : Word
  deriving DecidableEq, Repr

/-- Memory: the cells that do not hold 0x0000, by address, in rising order (R50, R68; notes/assumptions/2).
The unit is the 16-bit word: the machine has no byte addressing (R50, R55). The canonical form is
`Memory.wf` in Ops.lean. -/
abbrev Memory := List (Nat × Word)

/-- One entry of the history of a step: a memory access (R62) or a byte given to the console (R201). -/
inductive Event where
  | read (addr : Word)
  | write (addr value : Word)
  | out (b : Byte)
  deriving DecidableEq, Repr

/-- The machine's state. The first eight fields are the spec's own (R32, R50, R201); the last four are the
model's: the host's side of the console port as data (R130, R201, R202), the unfinished step (R126), and the
open parameters (R6). -/
structure State where
  /-- R0 to R7 (R20). -/
  regs : Regs
  /-- The program counter (R22). -/
  pc : Word
  /-- COND (R23). -/
  cond : Cond
  /-- The run state (R26). -/
  run : RunState
  /-- The error latch (R27). -/
  err : Option ErrorRecord
  /-- Memory (R50). -/
  mem : Memory
  /-- The console output stream, oldest byte first (R201). -/
  output : List Byte
  /-- The answers the host has given and no routine has taken yet, oldest first (R202, R130). -/
  input : List ConsoleAnswer
  /-- How many further bytes the host accepts before it reports an output failure (R201); `none`: it
  reports none. -/
  outRoom : Option Nat
  /-- The unfinished TRAP step, if any (R126, R31). -/
  pending : Option Pending
  /-- The open parameters (R6); no step changes them. -/
  params : Params
  deriving DecidableEq, Repr

/-- Why a step does not happen. -/
inductive Fault where
  /-- Raised by `step` alone, in run state HALTED, where the spec says "there is no step" (R127). Safe: the
  machine stops where the hardware stops. No instruction raises it. -/
  | halted
  /-- Raised by `step` alone, in a hold of GETC or IN that the host has not answered: a hold "has no successor
  state until the host acts" (R126, D18), and the state is the same, to be stepped again after the answer. Safe:
  the machine is stuck where the hardware is. No instruction raises it. -/
  | waiting
  deriving DecidableEq, Repr

/-- Why the model gives no meaning. -/
inductive Refusal where
  /-- An instruction that has no meaning yet; no arm of `exec` answers it. -/
  | notModelled (mnemonic : String)
  /-- Raised by the loader (Loader.lean) for an image whose words would go past 0xFFFF, a launch the spec
  does not model (R294, D17). Safe. No step raises it. -/
  | imagePastEnd
  /-- Raised by the loader for a file that is not a sequence of whole words with an origin word: the
  loader's own error, after which the core is never entered (R250, R292, R294). Safe. No step raises it. -/
  | imageLoadError
  deriving DecidableEq, Repr

/-- What a step answers. -/
abbrev Result := Host.Outcome State Fault Refusal

/-- The register file whose register `r` holds `f r`. -/
def Regs.ofFn (f : Reg → Word) : Regs :=
  ⟨f .r0, f .r1, f .r2, f .r3, f .r4, f .r5, f .r6, f .r7⟩

/-- The state after reset, before the loader, for given register values and parameters (R32, R292). The host
has answered nothing yet and reports no output failure: a free input, so a claim quantifies over it. -/
def State.resetWith (gpr : Reg → Word) (ps : Params) : State where
  regs := Regs.ofFn gpr
  pc := Config.resetPc
  cond := .z
  run := .running
  err := none
  mem := []
  output := []
  input := []
  outRoom := none
  pending := none
  params := ps

/-- The machine right after reset, the parameters at their defaults (R32, R6). The default `image_list` is
empty, so nothing is loaded. -/
def State.reset : State := State.resetWith Config.gprReset Config.params

end Sys2Proof.Machine
end

