-- ==== Sys2Proof/Machine/Flags.lean ====
section
/-! DEFINITION. The condition flags: their bits, `setcc`, and the condition test (spec/10_state.md R23 to R25;
spec/42_control.md R150). -/

namespace Sys2Proof.Machine

/-- The one-hot bits of COND, laid out as the BR mask is: bit 2 = N, bit 1 = Z, bit 0 = P (R23). -/
def Cond.bits : Cond → BitVec 3
  | .n => 0b100#3
  | .z => 0b010#3
  | .p => 0b001#3

/-- The flag-update function (R24). -/
def setcc (v : Word) : Cond :=
  if v = 0x0000#16 then .z else if v.getLsbD 15 then .n else .p

/-- The condition test of BR: some flag of the mask is set (R150, R128). -/
def condTaken (nzp : BitVec 3) (c : Cond) : Bool := nzp &&& c.bits != 0b000#3

end Sys2Proof.Machine
end

