-- ==== Sys2Proof/Machine/Ops.lean ====
section
/-! DEFINITION. The operations on registers, memory, the program counter, the console port and the run state
that every meaning is written with (the primitives of spec/00_scope.md R12), and among them the entry and
return of a TRAP (R259, R260) and the raising of a fatal error (R252). -/

namespace Sys2Proof.Machine

/-! ### Memory (R50 to R53) -/

/-- What the list holds at an address; an unlisted address reads 0x0000, the reset contents (R68). -/
def Memory.cellAt : Memory → Nat → Word
  | [], _ => 0x0000#16
  | (k, w) :: t, a => if k = a then w else Memory.cellAt t a

/-- The list with `v` at an address, in the canonical form. -/
def Memory.putCell : Memory → Nat → Word → Memory
  | [], a, v => if v = 0x0000#16 then [] else [(a, v)]
  | (k, w) :: t, a, v =>
    if a < k then (if v = 0x0000#16 then (k, w) :: t else (a, v) :: (k, w) :: t)
    else if a = k then (if v = 0x0000#16 then t else (a, v) :: t)
    else (k, w) :: Memory.putCell t a v

/-- `MemRead(a)`: total, no side effect (R52). -/
def Memory.read (m : Memory) (a : Word) : Word := m.cellAt a.toNat

/-- `MemWrite(a, v)`: sets the one cell (R53). -/
def Memory.write (m : Memory) (a v : Word) : Memory := m.putCell a.toNat v

/-- The canonical form: addresses strictly rising and inside the address space, and no cell that holds what
an unlisted address reads as. -/
abbrev Memory.wf (m : Memory) : Prop :=
  m.Pairwise (fun c d => c.1 < d.1) ∧ ∀ c ∈ m, c.1 < 65536 ∧ c.2 ≠ 0x0000#16

/-! ### Registers (R20) -/

/-- `R[i]`. -/
def Regs.get (rs : Regs) : Reg → Word
  | .r0 => rs.r0
  | .r1 => rs.r1
  | .r2 => rs.r2
  | .r3 => rs.r3
  | .r4 => rs.r4
  | .r5 => rs.r5
  | .r6 => rs.r6
  | .r7 => rs.r7

/-- `R[i] <- v` on the register file. -/
def Regs.set (rs : Regs) (r : Reg) (v : Word) : Regs :=
  match r with
  | .r0 => { rs with r0 := v }
  | .r1 => { rs with r1 := v }
  | .r2 => { rs with r2 := v }
  | .r3 => { rs with r3 := v }
  | .r4 => { rs with r4 := v }
  | .r5 => { rs with r5 := v }
  | .r6 => { rs with r6 := v }
  | .r7 => { rs with r7 := v }

/-- `R[r]` (R12). -/
def State.reg (s : State) (r : Reg) : Word := s.regs.get r

/-- `R[r] <- v`; the condition flags are not changed (R12). -/
def State.setReg (s : State) (r : Reg) (v : Word) : State := { s with regs := s.regs.set r v }

/-- `R[r] <-cc v`: the write, then `COND <- setcc(v)` (R12, R24). -/
def State.setRegCC (s : State) (r : Reg) (v : Word) : State :=
  { s with regs := s.regs.set r v, cond := setcc v }

/-! ### The program counter, fetch and stores -/

/-- `PC <- v` (R12). -/
def State.setPc (s : State) (v : Word) : State := { s with pc := v }

/-- The fetch unit: the word at PC (R121). -/
def State.fetch (s : State) : Word := s.mem.read s.pc

/-- The PC incrementer, modulo 2^16 (R122). -/
def State.incPc (s : State) : State := s.setPc (s.pc + 1#16)

/-- The fetch address `fa` of the instruction being executed: PC holds fa + 1 during the execute part of a
step (R22, R121). -/
def State.fetchAddr (s : State) : Word := s.pc - 1#16

/-- `MemRead(a)` of the state's memory (R52). -/
def State.load (s : State) (a : Word) : Word := s.mem.read a

/-- `MemWrite(a, v)`: the one cell, and no other state (R53). -/
def State.store (s : State) (a v : Word) : State := { s with mem := s.mem.write a v }

/-! ### The console port (R200 to R202) -/

/-- The host accepts `n` further bytes without reporting a failure (R201). -/
def State.outAccepts (s : State) (n : Nat) : Bool :=
  match s.outRoom with
  | none => true
  | some k => decide (n ≤ k)

/-- `ConsoleOut` of each byte in turn: those the host accepts are appended to the stream; the first that it
does not accept, and all after it, are not (R201). -/
def State.emit (s : State) (bs : List Byte) : State :=
  match s.outRoom with
  | none => { s with output := s.output ++ bs }
  | some k => { s with output := s.output ++ bs.take k, outRoom := some (k - bs.length) }

/-- The host's oldest answer has been taken (R202). -/
def State.takeInput (s : State) : State := { s with input := s.input.tail }

/-! ### Errors, HALTED, and the entry and return of a TRAP -/

/-- `halt()`: the run state becomes HALTED, and no step is left unfinished (R26). -/
def State.halt (s : State) : State := { s with run := .halted, pending := none }

/-- `raise E(info)`: the error latch, then `halt()` (R252). This is the machine's only exception: nothing is
saved, no handler is entered, and the record names the fetch address. -/
def State.raise (s : State) (e : ErrorRecord) : State := { s.halt with err := some e }

/-- Trap entry: the incremented PC goes to R7, COND unchanged; no mode, mask or stack, and no vector table
(R204, R259). -/
def State.trapEntry (s : State) : State := s.setReg .r7 s.pc

/-- Trap return: the step ends, PC stays at fa + 1, and nothing is restored (R260). -/
def State.trapReturn (s : State) : State := { s with pending := none }

/-- The step is left unfinished in a routine (R126). -/
def State.suspend (s : State) (p : Pending) : State := { s with pending := some p }

end Sys2Proof.Machine
end

