-- ==== Sys2Proof/Machine/Operands.lean ====
section
/-! DEFINITION. The operand forms: sign and zero extension, the address adder, and the ALU
(spec/00_scope.md R9 to R11; spec/30_encoding.md R95; spec/40_fetch_execute.md R129; spec/41_operate.md R140). -/

namespace Sys2Proof.Machine

/-- `sext_n(v)`: the n-bit field, its top bit copied into every higher bit (R10). -/
def sext {n : Nat} (v : BitVec n) : Word := v.signExtend 16

/-- `zext_16(b)` (R11). -/
def zext (b : Byte) : Word := b.setWidth 16

/-- Bits [7:0] of a word (R55). -/
def lowByte (w : Word) : Byte := w.extractLsb' 0 8

/-- Bits [15:8] of a word (R55, R209). -/
def highByte (w : Word) : Byte := w.extractLsb' 8 8

/-- The address adder, modulo 2^16 (R129). -/
def addrAdd (base offset : Word) : Word := base + offset

/-- The PC-relative form: the incremented PC plus a sign-extended offset (R60, R177). -/
def State.pcRel {n : Nat} (s : State) (offset : BitVec n) : Word := addrAdd s.pc (sext offset)

/-- The indirect form: the word at the PC-relative address (R60, R177). -/
def State.indirect (s : State) (off9 : BitVec 9) : Word := s.load (s.pcRel off9)

/-- The base + offset form; the base register is not modified (R60, R177). -/
def State.baseOffset (s : State) (base : Reg) (off6 : BitVec 6) : Word := addrAdd (s.reg base) (sext off6)

/-- The ALU's operations (R140). -/
inductive AluOp where
  | add | and | not
  deriving DecidableEq, Repr

/-- The ALU (R140). NOT ignores its second operand. -/
def alu (op : AluOp) (a b : Word) : Word :=
  match op with
  | .add => a + b
  | .and => a &&& b
  | .not => ~~~a

end Sys2Proof.Machine
end

