-- ==== Sys2Proof/Machine/Control.lean ====
section
/-! DEFINITION. Control transfer (spec/42_control.md). -/

namespace Sys2Proof.Machine

/-- The link write of JSR and JSRR: the incremented PC goes to R7, COND unchanged (R153, R154). -/
def State.link (s : State) : State := s.setReg .r7 s.pc

/-- The target of JSRR: BaseR is read after the link write, or before it where the parameter
`jsrr_base_read_before_link` says so (R154, D3). -/
def State.jsrrTarget (s : State) (base : Reg) : Word :=
  if s.params.jsrrBaseReadBeforeLink then s.reg base else s.link.reg base

/-- BR (R150). -/
def execBr (nzp : BitVec 3) (off9 : BitVec 9) (s : State) : Result :=
  .next (if condTaken nzp s.cond then s.setPc (s.pcRel off9) else s)

/-- JMP (R151). -/
def execJmp (base : Reg) (s : State) : Result := .next (s.setPc (s.reg base))

/-- RET (R152). -/
def execRet (s : State) : Result := .next (s.setPc (s.reg .r7))

/-- JSR (R153). -/
def execJsr (off11 : BitVec 11) (s : State) : Result := .next (s.link.setPc (s.pcRel off11))

/-- JSRR (R154). -/
def execJsrr (base : Reg) (s : State) : Result := .next (s.link.setPc (s.jsrrTarget base))

end Sys2Proof.Machine
end

