-- ==== Sys2Proof/Machine/LoadStore.lean ====
section
/-! DEFINITION. Loads, LEA and stores (spec/43_load_store.md). -/

namespace Sys2Proof.Machine

/-- LD (R170). -/
def execLd (dr : Reg) (off9 : BitVec 9) (s : State) : Result := .next (s.setRegCC dr (s.load (s.pcRel off9)))

/-- LDI: the pointer, then the word it points at (R171). -/
def execLdi (dr : Reg) (off9 : BitVec 9) (s : State) : Result :=
  .next (s.setRegCC dr (s.load (s.indirect off9)))

/-- LDR (R172). -/
def execLdr (dr base : Reg) (off6 : BitVec 6) (s : State) : Result :=
  .next (s.setRegCC dr (s.load (s.baseOffset base off6)))

/-- LEA: no memory access; the flags are set (R173). -/
def execLea (dr : Reg) (off9 : BitVec 9) (s : State) : Result := .next (s.setRegCC dr (s.pcRel off9))

/-- ST (R174). -/
def execSt (sr : Reg) (off9 : BitVec 9) (s : State) : Result := .next (s.store (s.pcRel off9) (s.reg sr))

/-- STI: the pointer is read before the write (R175). -/
def execSti (sr : Reg) (off9 : BitVec 9) (s : State) : Result := .next (s.store (s.indirect off9) (s.reg sr))

/-- STR (R176). -/
def execStr (sr base : Reg) (off6 : BitVec 6) (s : State) : Result :=
  .next (s.store (s.baseOffset base off6) (s.reg sr))

end Sys2Proof.Machine
end

