-- ==== Sys2Proof/Machine/Operate.lean ====
section
/-! DEFINITION. The operate instructions (spec/41_operate.md). -/

namespace Sys2Proof.Machine

/-- A three-operand operation: both sources are read before the destination is written with its flags. -/
def operate (op : AluOp) (dr : Reg) (a b : Word) (s : State) : State := s.setRegCC dr (alu op a b)

/-- ADD, register mode (R141). -/
def execAdd (dr sr1 sr2 : Reg) (s : State) : Result := .next (operate .add dr (s.reg sr1) (s.reg sr2) s)

/-- ADD, immediate mode (R142). -/
def execAddImm (dr sr1 : Reg) (imm5 : BitVec 5) (s : State) : Result :=
  .next (operate .add dr (s.reg sr1) (sext imm5) s)

/-- AND, register mode (R143). -/
def execAnd (dr sr1 sr2 : Reg) (s : State) : Result := .next (operate .and dr (s.reg sr1) (s.reg sr2) s)

/-- AND, immediate mode (R144). -/
def execAndImm (dr sr1 : Reg) (imm5 : BitVec 5) (s : State) : Result :=
  .next (operate .and dr (s.reg sr1) (sext imm5) s)

/-- NOT (R145). -/
def execNot (dr sr : Reg) (s : State) : Result := .next (operate .not dr (s.reg sr) 0x0000#16 s)

end Sys2Proof.Machine
end

