-- ==== Sys2Proof/WellFormed.lean ====
section
/-! DEFINITION. Which instructions are the reading of some word: the most refined row of
spec/opcode_table.json that their word matches (spec/30_encoding.md R88, R99, R102). -/

namespace Sys2Proof

/-- The six vectors that select a service routine, 0x20 to 0x25 (R99, R203). -/
def vectorInService (v : BitVec 8) : Bool := decide (0x20#8 ≤ v) && decide (v ≤ 0x25#8)

/-- An instruction is well formed when it is the most refined row its word matches (R102):
a JMP through R7 is RET (R88), the base row TRAP is always one of its seven refinements, and the row
"TRAP (invalid vector)" holds no vector of a service routine (R99). Every other instruction is well formed,
since each field admits every value of its width (R83, R95). -/
def WellFormed : Instr → Bool
  | .add _ _ _ => true
  | .addImm _ _ _ => true
  | .and _ _ _ => true
  | .andImm _ _ _ => true
  | .not _ _ => true
  | .br _ _ => true
  | .jmp base => base != .r7
  | .ret => true
  | .jsr _ => true
  | .jsrr _ => true
  | .ld _ _ => true
  | .ldi _ _ => true
  | .ldr _ _ _ => true
  | .lea _ _ => true
  | .st _ _ => true
  | .sti _ _ => true
  | .str _ _ _ => true
  | .trap _ => false
  | .getc => true
  | .out => true
  | .puts => true
  | .inp => true
  | .putsp => true
  | .halt => true
  | .trapInvalidVector v => !vectorInService v
  | .rti _ => true
  | .res _ => true

end Sys2Proof
end

