-- ==== Sys2Proof/Decode.lean ====
section
/-! DEFINITION. The decoder of spec/30_encoding.md (R80 to R102), total on the 65536 words, then the encoder
and the rows of spec/opcode_table.json as masks and patterns. No word is rejected: R102, R98. -/

namespace Sys2Proof

/-! ### Register fields and opcodes -/

/-- The register a 3-bit field names (R83). -/
def Reg.ofBits (b : BitVec 3) : Reg :=
  match b.toNat with
  | 0 => .r0
  | 1 => .r1
  | 2 => .r2
  | 3 => .r3
  | 4 => .r4
  | 5 => .r5
  | 6 => .r6
  | _ => .r7

/-- The 3-bit field that names a register (R83). -/
def Reg.bits : Reg → BitVec 3
  | .r0 => 0#3
  | .r1 => 1#3
  | .r2 => 2#3
  | .r3 => 3#3
  | .r4 => 4#3
  | .r5 => 5#3
  | .r6 => 6#3
  | .r7 => 7#3

/-- The opcode map, from ir[15:12] (R82; the numbers are the spec's decision D1). -/
def Opcode.ofBits (b : BitVec 4) : Opcode :=
  match b.toNat with
  | 0x0 => .br
  | 0x1 => .add
  | 0x2 => .ld
  | 0x3 => .st
  | 0x4 => .jsr
  | 0x5 => .and
  | 0x6 => .ldr
  | 0x7 => .str
  | 0x8 => .rti
  | 0x9 => .not
  | 0xA => .ldi
  | 0xB => .sti
  | 0xC => .jmp
  | 0xD => .res
  | 0xE => .lea
  | _ => .trap

/-- The opcode's four bits (R82). -/
def Opcode.bits : Opcode → BitVec 4
  | .br => 0x0#4
  | .add => 0x1#4
  | .ld => 0x2#4
  | .st => 0x3#4
  | .jsr => 0x4#4
  | .and => 0x5#4
  | .ldr => 0x6#4
  | .str => 0x7#4
  | .rti => 0x8#4
  | .not => 0x9#4
  | .ldi => 0xA#4
  | .sti => 0xB#4
  | .jmp => 0xC#4
  | .res => 0xD#4
  | .lea => 0xE#4
  | .trap => 0xF#4

/-! ### The fields of a word (R96), each read in one place -/

/-- ir[15:12] (R81). -/
def irOp (ir : Word) : BitVec 4 := ir.extractLsb' 12 4
/-- ir[11:9]: DR, and SR of the stores (R83). -/
def irDr (ir : Word) : Reg := Reg.ofBits (ir.extractLsb' 9 3)
/-- ir[11:9] as the BR mask (R87). -/
def irNzp (ir : Word) : BitVec 3 := ir.extractLsb' 9 3
/-- ir[8:6]: SR1, SR of NOT, BaseR (R83). -/
def irSr1 (ir : Word) : Reg := Reg.ofBits (ir.extractLsb' 6 3)
/-- ir[5]: the mode of ADD and AND (R84, R85). -/
def irImode (ir : Word) : Bool := ir.getLsbD 5
/-- ir[2:0]: SR2 (R83). -/
def irSr2 (ir : Word) : Reg := Reg.ofBits (ir.extractLsb' 0 3)
/-- ir[4:0] (R95). -/
def irImm5 (ir : Word) : BitVec 5 := ir.extractLsb' 0 5
/-- ir[5:0] (R95). -/
def irOff6 (ir : Word) : BitVec 6 := ir.extractLsb' 0 6
/-- ir[8:0] (R95). -/
def irOff9 (ir : Word) : BitVec 9 := ir.extractLsb' 0 9
/-- ir[10:0] (R95). -/
def irOff11 (ir : Word) : BitVec 11 := ir.extractLsb' 0 11
/-- ir[11]: JSR (1) or JSRR (0) (R89, R90). -/
def irJmode (ir : Word) : Bool := ir.getLsbD 11
/-- ir[7:0] (R93). -/
def irVect8 (ir : Word) : BitVec 8 := ir.extractLsb' 0 8
/-- ir[11:0], ignored by RTI and RES but kept for their error record (R94, R253). -/
def irLow12 (ir : Word) : BitVec 12 := ir.extractLsb' 0 12

/-! ### The decoder -/

/-- The trap vector decoder (R203; ir[11:8] play no part). -/
def trapDecode (v : BitVec 8) : TrapRoutine :=
  match v.toNat with
  | 0x20 => .getc
  | 0x21 => .out
  | 0x22 => .puts
  | 0x23 => .inp
  | 0x24 => .putsp
  | 0x25 => .halt
  | _ => .invalid

/-- The base row a word matches (R102, R123): the opcode, then ir[5] within ADD and AND and ir[11] within
JSR. Every other bit that the format does not name is ignored (R97; the spec's decision D2). -/
def decodeBase (ir : Word) : Instr :=
  match Opcode.ofBits (irOp ir) with
  | .br => .br (irNzp ir) (irOff9 ir)
  | .add => if irImode ir then .addImm (irDr ir) (irSr1 ir) (irImm5 ir) else .add (irDr ir) (irSr1 ir) (irSr2 ir)
  | .ld => .ld (irDr ir) (irOff9 ir)
  | .st => .st (irDr ir) (irOff9 ir)
  | .jsr => if irJmode ir then .jsr (irOff11 ir) else .jsrr (irSr1 ir)
  | .and => if irImode ir then .andImm (irDr ir) (irSr1 ir) (irImm5 ir) else .and (irDr ir) (irSr1 ir) (irSr2 ir)
  | .ldr => .ldr (irDr ir) (irSr1 ir) (irOff6 ir)
  | .str => .str (irDr ir) (irSr1 ir) (irOff6 ir)
  | .rti => .rti (irLow12 ir)
  | .not => .not (irDr ir) (irSr1 ir)
  | .ldi => .ldi (irDr ir) (irOff9 ir)
  | .sti => .sti (irDr ir) (irOff9 ir)
  | .jmp => .jmp (irSr1 ir)
  | .res => .res (irLow12 ir)
  | .lea => .lea (irDr ir) (irOff9 ir)
  | .trap => .trap (irVect8 ir)

/-- The refinement row of TRAP that a vector picks (R102, R203). -/
def refineTrap (v : BitVec 8) : Instr :=
  match trapDecode v with
  | .getc => .getc
  | .out => .out
  | .puts => .puts
  | .inp => .inp
  | .putsp => .putsp
  | .halt => .halt
  | .invalid => .trapInvalidVector v

/-- Within JMP and TRAP, the refinement row; any other instruction is itself (R102). -/
def refine : Instr → Instr
  | .jmp .r7 => .ret
  | .trap v => refineTrap v
  | i => i

/-- The instruction of a word: its base row, then the refinement within JMP and TRAP (spec/INDEX.md, R102). -/
def decode (ir : Word) : Instr := refine (decodeBase ir)

/-! ### The encoder, from the formats R84 to R94

Bits a format marks `x` are written 0, but for NOT, whose ir[5:0] are conventionally ones (R86). -/

/-- Opcode, a 3-bit field and a 9-bit field (R87, R91). -/
def encode39 (op : Opcode) (f : BitVec 3) (off9 : BitVec 9) : Word := op.bits ++ f ++ off9

/-- Opcode, two 3-bit fields and a 6-bit field (R84 to R86, R88, R90, R92). -/
def encode336 (op : Opcode) (f g : BitVec 3) (low6 : BitVec 6) : Word := op.bits ++ f ++ g ++ low6

/-- TRAP and its vector (R93). -/
def encodeTrap (v : BitVec 8) : Word := Opcode.trap.bits ++ 0#4 ++ v

/-- The word of an instruction. -/
def encode : Instr → Word
  | .add dr sr1 sr2 => encode336 .add dr.bits sr1.bits (0#3 ++ sr2.bits)
  | .addImm dr sr1 imm5 => encode336 .add dr.bits sr1.bits (1#1 ++ imm5)
  | .and dr sr1 sr2 => encode336 .and dr.bits sr1.bits (0#3 ++ sr2.bits)
  | .andImm dr sr1 imm5 => encode336 .and dr.bits sr1.bits (1#1 ++ imm5)
  | .not dr sr => encode336 .not dr.bits sr.bits 0b111111#6
  | .br nzp off9 => encode39 .br nzp off9
  | .jmp base => encode336 .jmp 0#3 base.bits 0#6
  | .ret => encode336 .jmp 0#3 7#3 0#6
  | .jsr off11 => Opcode.jsr.bits ++ 1#1 ++ off11
  | .jsrr base => encode336 .jsr 0#3 base.bits 0#6
  | .ld dr off9 => encode39 .ld dr.bits off9
  | .ldi dr off9 => encode39 .ldi dr.bits off9
  | .ldr dr base off6 => encode336 .ldr dr.bits base.bits off6
  | .lea dr off9 => encode39 .lea dr.bits off9
  | .st sr off9 => encode39 .st sr.bits off9
  | .sti sr off9 => encode39 .sti sr.bits off9
  | .str sr base off6 => encode336 .str sr.bits base.bits off6
  | .trap v => encodeTrap v
  | .getc => encodeTrap 0x20#8
  | .out => encodeTrap 0x21#8
  | .puts => encodeTrap 0x22#8
  | .inp => encodeTrap 0x23#8
  | .putsp => encodeTrap 0x24#8
  | .halt => encodeTrap 0x25#8
  | .trapInvalidVector v => encodeTrap v
  | .rti low12 => Opcode.rti.bits ++ low12
  | .res low12 => Opcode.res.bits ++ low12

/-! ### The rows of spec/opcode_table.json -/

/-- The table's "mask" of an instruction's row: the bits the row fixes. -/
def rowMask : Instr → Word
  | .add _ _ _ => 0xF020#16
  | .addImm _ _ _ => 0xF020#16
  | .and _ _ _ => 0xF020#16
  | .andImm _ _ _ => 0xF020#16
  | .not _ _ => 0xF000#16
  | .br _ _ => 0xF000#16
  | .jmp _ => 0xF000#16
  | .ret => 0xF1C0#16
  | .jsr _ => 0xF800#16
  | .jsrr _ => 0xF800#16
  | .ld _ _ => 0xF000#16
  | .ldi _ _ => 0xF000#16
  | .ldr _ _ _ => 0xF000#16
  | .lea _ _ => 0xF000#16
  | .st _ _ => 0xF000#16
  | .sti _ _ => 0xF000#16
  | .str _ _ _ => 0xF000#16
  | .trap _ => 0xF000#16
  | .getc => 0xF0FF#16
  | .out => 0xF0FF#16
  | .puts => 0xF0FF#16
  | .inp => 0xF0FF#16
  | .putsp => 0xF0FF#16
  | .halt => 0xF0FF#16
  | .trapInvalidVector _ => 0xF000#16
  | .rti _ => 0xF000#16
  | .res _ => 0xF000#16

/-- The table's "match" of an instruction's row: the values of the bits the row fixes. -/
def rowMatch : Instr → Word
  | .add _ _ _ => 0x1000#16
  | .addImm _ _ _ => 0x1020#16
  | .and _ _ _ => 0x5000#16
  | .andImm _ _ _ => 0x5020#16
  | .not _ _ => 0x9000#16
  | .br _ _ => 0x0000#16
  | .jmp _ => 0xC000#16
  | .ret => 0xC1C0#16
  | .jsr _ => 0x4800#16
  | .jsrr _ => 0x4000#16
  | .ld _ _ => 0x2000#16
  | .ldi _ _ => 0xA000#16
  | .ldr _ _ _ => 0x6000#16
  | .lea _ _ => 0xE000#16
  | .st _ _ => 0x3000#16
  | .sti _ _ => 0xB000#16
  | .str _ _ _ => 0x7000#16
  | .trap _ => 0xF000#16
  | .getc => 0xF020#16
  | .out => 0xF021#16
  | .puts => 0xF022#16
  | .inp => 0xF023#16
  | .putsp => 0xF024#16
  | .halt => 0xF025#16
  | .trapInvalidVector _ => 0xF000#16
  | .rti _ => 0x8000#16
  | .res _ => 0xD000#16

/-- The word `ir` matches the row of the instruction `i`. -/
def matchesRow (i : Instr) (ir : Word) : Bool := ir &&& rowMask i == rowMatch i

/-- The (mask, match) pairs of the nineteen base rows, in the table's order (spec/INDEX.md). -/
def baseRows : List (Word × Word) :=
  [(0xF020#16, 0x1000#16), (0xF020#16, 0x1020#16), (0xF020#16, 0x5000#16), (0xF020#16, 0x5020#16),
   (0xF000#16, 0x9000#16), (0xF000#16, 0x0000#16), (0xF000#16, 0xC000#16), (0xF800#16, 0x4800#16),
   (0xF800#16, 0x4000#16), (0xF000#16, 0x2000#16), (0xF000#16, 0xA000#16), (0xF000#16, 0x6000#16)] ++
  [(0xF000#16, 0xE000#16), (0xF000#16, 0x3000#16), (0xF000#16, 0xB000#16), (0xF000#16, 0x7000#16),
   (0xF000#16, 0xF000#16), (0xF000#16, 0x8000#16), (0xF000#16, 0xD000#16)]

/-! ### The host's reading -/

/-- The low `nbits` bits of `w` as one instruction word, the bits above them zero. -/
def tableWord (nbits w : Nat) : Word := BitVec.ofNat 16 (w % 2 ^ nbits)

/-- The instruction the decoder reads from a table word: every instruction is one 16-bit word (R80), so a
longer row is none of this hardware's. -/
def decodeTableWord (nbits w : Nat) : Option Instr :=
  if nbits ≤ 16 then some (decode (tableWord nbits w)) else none

end Sys2Proof
end

