-- ==== Sys2Proof/Machine/Reserved.lean ====
section
/-! DEFINITION. The reserved opcodes, which are always invalid (spec/45_reserved.md). -/

namespace Sys2Proof.Machine

/-- `raise InvalidOpcode(fa, op, ir)` with the opcode and the whole word in the record; nothing else changes
(R240, R241, R253). -/
def invalidOpcode (op : Opcode) (low12 : BitVec 12) (s : State) : State :=
  s.raise (.invalidOpcode s.fetchAddr op.bits (op.bits ++ low12))

/-- RTI (R240). -/
def execRti (low12 : BitVec 12) (s : State) : Result := .next (invalidOpcode .rti low12 s)

/-- RES (R241). -/
def execRes (low12 : BitVec 12) (s : State) : Result := .next (invalidOpcode .res low12 s)

end Sys2Proof.Machine
end

