-- ==== Sys2Proof/Machine/Trap.lean ====
section
/-! DEFINITION. TRAP and its service routines (spec/44_trap.md). A routine runs inside the TRAP step; where
the step cannot finish (the hold of R126, a string without end), the state says so in `pending`, and `carryOn`
carries it on. -/

namespace Sys2Proof.Machine

/-! ### The string scan of PUTS and PUTSP -/

/-- The addresses from `a` on, at most `n` of them, that come before the first zero cell (R207, R209). -/
def scanCells (m : Memory) : Nat → Word → List Word
  | 0, _ => []
  | n + 1, a => if m.read a = 0x0000#16 then [] else a :: scanCells m n (a + 1#16)

/-- One lap of the scan is the whole address space: past it the scan is back where it began (R207). -/
def lapCells : Nat := 65536

/-- The scan from `a` meets a zero cell. -/
def scanEnds (m : Memory) (a : Word) : Bool := decide ((scanCells m lapCells a).length < lapCells)

/-- The history of one lap: each cell's own events, then the read of the zero cell that ends the scan (R62). -/
def lapEvents (cell : Word → List Event) (m : Memory) (a : Word) : List Event :=
  let cells := scanCells m lapCells a
  cells.flatMap cell ++ if scanEnds m a then [.read (a + BitVec.ofNat 16 cells.length)] else []

/-- PUTS on one cell: the read, and the low byte out (R207). -/
def putsCell (m : Memory) (a : Word) : List Event := [.read a, .out (lowByte (m.read a))]

/-- PUTSP on one cell: the read; the low byte, whatever it is; then a nonzero high byte, or, only where the
parameter is true, a look-ahead read and a zero high byte if the next cell is not the end (R209, D10). -/
def putspCell (emitZeroHigh : Bool) (m : Memory) (a : Word) : List Event :=
  let w := m.read a
  [.read a, .out (lowByte w)] ++
    if highByte w ≠ 0x00#8 then [.out (highByte w)]
    else if emitZeroHigh then
      .read (a + 1#16) :: (if m.read (a + 1#16) ≠ 0x0000#16 then [.out 0x00#8] else [])
    else []

/-- One lap of PUTS from R0 (R207). -/
def State.putsLap (s : State) : List Event := lapEvents (putsCell s.mem) s.mem (s.reg .r0)

/-- One lap of PUTSP from R0 (R209). -/
def State.putspLap (s : State) : List Event :=
  lapEvents (putspCell s.params.putspEmitZeroHighNonfinal s.mem) s.mem (s.reg .r0)

/-- The bytes of a history, in order. -/
def outBytes : List Event → List Byte
  | [] => []
  | .out b :: es => b :: outBytes es
  | .read _ :: es => outBytes es
  | .write _ _ :: es => outBytes es

/-! ### The routines, from the point after the R7 write; `fa` is the fetch address -/

/-- `ConsoleIOError(fa, vect8)` (R255). -/
def State.consoleError (s : State) (fa : Word) (v : BitVec 8) : State := s.raise (.consoleIOError fa v)

/-- GETC: wait for a byte, then R0 and the flags (R205). -/
def getcRoutine (fa : Word) (s : State) : State :=
  match s.input with
  | [] => s.suspend ⟨.getc, fa⟩
  | .byte b :: _ => s.takeInput.trapReturn.setRegCC .r0 (zext b)
  | .failure :: _ => s.takeInput.consoleError fa 0x20#8

/-- OUT: the low byte of R0 (R206). -/
def outRoutine (fa : Word) (s : State) : State :=
  if s.outAccepts 1 then (s.emit [lowByte (s.reg .r0)]).trapReturn
  else (s.emit [lowByte (s.reg .r0)]).consoleError fa 0x21#8

/-- One lap of a string routine: its bytes go out; the first one that fails ends it with an error; without a
zero cell it is not finished, and the next lap begins at R0 again (R207, R209; notes/assumptions/7). -/
def stringRoutine (r : Suspended) (v : BitVec 8) (lap : List Event) (fa : Word) (s : State) : State :=
  let s' := s.emit (outBytes lap)
  if s.outAccepts (outBytes lap).length then
    if scanEnds s.mem (s.reg .r0) then s'.trapReturn else s'.suspend ⟨r, fa⟩
  else s'.consoleError fa v

/-- PUTS (R207). -/
def putsRoutine (fa : Word) (s : State) : State := stringRoutine .puts 0x22#8 s.putsLap fa s

/-- PUTSP (R209). -/
def putspRoutine (fa : Word) (s : State) : State := stringRoutine .putsp 0x24#8 s.putspLap fa s

/-- IN after its prompt: wait for a byte, echo it, then R0 and the flags (R208). -/
def inpWait (fa : Word) (s : State) : State :=
  match s.input with
  | [] => s.suspend ⟨.inp, fa⟩
  | .byte b :: _ =>
    if s.outAccepts 1 then (s.takeInput.emit [b]).trapReturn.setRegCC .r0 (zext b)
    else (s.takeInput.emit [b]).consoleError fa 0x23#8
  | .failure :: _ => s.takeInput.consoleError fa 0x23#8

/-- IN: the prompt, then the wait (R208). -/
def inpRoutine (fa : Word) (s : State) : State :=
  if s.outAccepts s.params.inPrompt.length then inpWait fa (s.emit s.params.inPrompt)
  else (s.emit s.params.inPrompt).consoleError fa 0x23#8

/-- HALT: the notice, then HALTED with no error (R210). -/
def haltRoutine (fa : Word) (s : State) : State :=
  if s.outAccepts s.params.haltNotice.length then (s.emit s.params.haltNotice).halt
  else (s.emit s.params.haltNotice).consoleError fa 0x25#8

/-- `raise InvalidTrap(fa, vect8)` (R211, R254). -/
def invalidTrap (v : BitVec 8) (fa : Word) (s : State) : State := s.raise (.invalidTrap fa v)

/-- The routine that the trap vector decoder selects (R203, R204). -/
def trapRoutine (v : BitVec 8) (fa : Word) (s : State) : State :=
  match trapDecode v with
  | .getc => getcRoutine fa s
  | .out => outRoutine fa s
  | .puts => putsRoutine fa s
  | .inp => inpRoutine fa s
  | .putsp => putspRoutine fa s
  | .halt => haltRoutine fa s
  | .invalid => invalidTrap v fa s

/-! ### The meanings: the R7 write, then the routine -/

/-- TRAP with any vector (R204). -/
def execTrap (v : BitVec 8) (s : State) : Result := .next (trapRoutine v s.fetchAddr s.trapEntry)

/-- GETC (R205). -/
def execGetc (s : State) : Result := .next (getcRoutine s.fetchAddr s.trapEntry)

/-- OUT (R206). -/
def execOut (s : State) : Result := .next (outRoutine s.fetchAddr s.trapEntry)

/-- PUTS (R207). -/
def execPuts (s : State) : Result := .next (putsRoutine s.fetchAddr s.trapEntry)

/-- IN (R208). -/
def execInp (s : State) : Result := .next (inpRoutine s.fetchAddr s.trapEntry)

/-- PUTSP (R209). -/
def execPutsp (s : State) : Result := .next (putspRoutine s.fetchAddr s.trapEntry)

/-- HALT (R210). -/
def execHalt (s : State) : Result := .next (haltRoutine s.fetchAddr s.trapEntry)

/-- TRAP with an invalid vector: R7 is written, then the error (R211, R254). -/
def execTrapInvalidVector (v : BitVec 8) (s : State) : Result := .next (invalidTrap v s.fetchAddr s.trapEntry)

/-! ### Carrying on an unfinished step -/

/-- An unfinished TRAP step goes on where it stopped: a wait takes its answer (R126, R202), and a string without
end begins its next lap (R207, R209). -/
def resume (p : Pending) (s : State) : State :=
  match p.routine with
  | .getc => getcRoutine p.addr s
  | .inp => inpWait p.addr s
  | .puts => putsRoutine p.addr s
  | .putsp => putspRoutine p.addr s

/-- The unfinished step is a hold: GETC or IN, waiting for a console byte (R126, R202). -/
def Suspended.isHold : Suspended → Bool
  | .getc => true
  | .inp => true
  | .puts => false
  | .putsp => false

/-- The hold has not been answered (R126, R202). -/
def Pending.awaits (p : Pending) (s : State) : Bool := p.routine.isHold && s.input.isEmpty

/-- What becomes of an unfinished step: a hold has no successor until the host acts (R126, D18;
notes/assumptions/6), and everything else goes on. -/
def carryOn (p : Pending) (s : State) : Result :=
  if p.awaits s then .fault .waiting else .next (resume p s)

end Sys2Proof.Machine
end

