-- ==== Sys2Proof/Machine/Step.lean ====
section
/-! DEFINITION. The execute step (spec/40_fetch_execute.md R120 to R127), and the host's way to place one
instruction where the next step fetches it. -/

namespace Sys2Proof.Machine

/-- One step. In HALTED there is none (R127). An unfinished TRAP step goes on, and an unanswered hold has no
successor (R126). Otherwise: fetch, the PC increment, decode, execute, in that order (R120, R124). -/
def step (s : State) : Host.Outcome State Fault Refusal :=
  match s.run with
  | .halted => .fault .halted
  | .running =>
    match s.pending with
    | some p => carryOn p s
    | none => exec (decode s.fetch) s.incPc

/-- `s` with a table word stored where the next step fetches: at PC, in a machine that is running and has no
step left unfinished. -/
def State.withFetchWord (s : State) (nbits w : Nat) : State :=
  { s.store s.pc (tableWord nbits w) with run := .running, pending := none }

end Sys2Proof.Machine
end

