-- ==== Sys2Proof/Machine/Events.lean ====
section
/-! DEFINITION. The history of a step: its memory accesses in order (spec/20_memory.md R62) with the bytes it
gives to the console among them (spec/44_trap.md R201). -/

namespace Sys2Proof.Machine

/-- The part of a history that happens when the host accepts `room` bytes: it ends where the first output
fails (R201, R255). -/
def performed : Option Nat → List Event → List Event
  | none, es => es
  | some _, [] => []
  | some 0, .out _ :: _ => []
  | some (k + 1), .out b :: es => .out b :: performed (some k) es
  | some k, .read a :: es => .read a :: performed (some k) es
  | some k, .write a v :: es => .write a v :: performed (some k) es

/-- IN's echo, if the host has answered with a byte (R208). -/
def echoOf (input : List ConsoleAnswer) : List Event :=
  match input with
  | .byte b :: _ => [.out b]
  | _ => []

/-- The history of a routine, as R205 to R211 order it, in the state after the R7 write. -/
def routineEvents (r : TrapRoutine) (s : State) : List Event :=
  match r with
  | .getc => []
  | .out => performed s.outRoom [.out (lowByte (s.reg .r0))]
  | .puts => performed s.outRoom s.putsLap
  | .inp => performed s.outRoom (s.params.inPrompt.map .out ++ echoOf s.input)
  | .putsp => performed s.outRoom s.putspLap
  | .halt => performed s.outRoom (s.params.haltNotice.map .out)
  | .invalid => []

/-- The history of an instruction after its fetch (R62); `s` is the state that `exec` receives. -/
def instrEvents (i : Instr) (s : State) : List Event :=
  match i with
  | .add _ _ _ => []
  | .addImm _ _ _ => []
  | .and _ _ _ => []
  | .andImm _ _ _ => []
  | .not _ _ => []
  | .br _ _ => []
  | .jmp _ => []
  | .ret => []
  | .jsr _ => []
  | .jsrr _ => []
  | .ld _ off9 => [.read (s.pcRel off9)]
  | .ldi _ off9 => [.read (s.pcRel off9), .read (s.indirect off9)]
  | .ldr _ base off6 => [.read (s.baseOffset base off6)]
  | .lea _ _ => []
  | .st sr off9 => [.write (s.pcRel off9) (s.reg sr)]
  | .sti sr off9 => [.read (s.pcRel off9), .write (s.indirect off9) (s.reg sr)]
  | .str sr base off6 => [.write (s.baseOffset base off6) (s.reg sr)]
  | .trap v => routineEvents (trapDecode v) s.trapEntry
  | .getc => routineEvents .getc s.trapEntry
  | .out => routineEvents .out s.trapEntry
  | .puts => routineEvents .puts s.trapEntry
  | .inp => routineEvents .inp s.trapEntry
  | .putsp => routineEvents .putsp s.trapEntry
  | .halt => routineEvents .halt s.trapEntry
  | .trapInvalidVector _ => []
  | .rti _ => []
  | .res _ => []

/-- The history of an unfinished step going on: a wait has no prompt left to give, a string has one more lap. -/
def resumeEvents (p : Pending) (s : State) : List Event :=
  match p.routine with
  | .getc => []
  | .inp => performed s.outRoom (echoOf s.input)
  | .puts => performed s.outRoom s.putsLap
  | .putsp => performed s.outRoom s.putspLap

/-- The history of a step, its fetch first (R60, R62). -/
def stepEvents (s : State) : List Event :=
  match s.run with
  | .halted => []
  | .running =>
    match s.pending with
    | some p => resumeEvents p s
    | none => .read s.pc :: instrEvents (decode s.fetch) s.incPc

/-- Memory after a history: its writes, in order (R53, R63). -/
def applyWrites : List Event → Memory → Memory
  | [], m => m
  | .read _ :: es, m => applyWrites es m
  | .out _ :: es, m => applyWrites es m
  | .write a v :: es, m => applyWrites es (m.write a v)

/-- The addresses a history reads. -/
def readAddrs : List Event → List Word
  | [] => []
  | .read a :: es => a :: readAddrs es
  | .out _ :: es => readAddrs es
  | .write _ _ :: es => readAddrs es

end Sys2Proof.Machine
end

