-- ==== Sys2Proof/Machine/Loader.lean ====
section
/-! DEFINITION. The loader's effect on memory before the first step (spec/70_reset_and_hazards.md R292, R294),
and what the host can do to a running machine through the console port (spec/40_fetch_execute.md R130). -/

namespace Sys2Proof.Machine

/-! ### Images (R294) -/

/-- The words at consecutive addresses from `a` on. -/
def Memory.writeWords : Memory → Word → List Word → Memory
  | m, _, [] => m
  | m, a, w :: ws => Memory.writeWords (m.write a w) (a + 1#16) ws

/-- The image's words end inside the address space: o + n - 1 ≤ 0xFFFF (R294). -/
def imageFits (img : Image) : Bool := decide (img.origin.toNat + img.words.length ≤ 65536)

/-- One image: its words go where its origin puts them, and the origin neither is stored nor sets the PC; an
image past 0xFFFF is refused (R294, D17). -/
def loadImage (img : Image) (s : State) : Result :=
  if imageFits img then .next { s with mem := s.mem.writeWords img.origin img.words }
  else .refused .imagePastEnd

/-- Images in the order given, so that a later image's word replaces an earlier one (R294). -/
def loadImages : List Image → State → Result
  | [], s => .next s
  | img :: rest, s =>
    match loadImage img s with
    | .next s' => loadImages rest s'
    | .fault f => .fault f
    | .refused r => .refused r

/-- A file's bytes as 16-bit big-endian words: `(b[2k] << 8) | b[2k+1]` (R294); an odd byte is an error. -/
def bigEndianWords : List Byte → Option (List Word)
  | [] => some []
  | [_] => none
  | hi :: lo :: rest => (bigEndianWords rest).map ((hi ++ lo) :: ·)

/-- A file as an image: the first word is the origin (R294). -/
def imageOfBytes (bs : List Byte) : Option Image :=
  match bigEndianWords bs with
  | some (o :: ws) => some ⟨o, ws⟩
  | some [] => none
  | none => none

/-- One file: its image, or the loader's own error (R250, R294). -/
def loadFile (bs : List Byte) (s : State) : Result :=
  match imageOfBytes bs with
  | some img => loadImage img s
  | none => .refused .imageLoadError

/-- The reset sequence (R292): the reset values, then the images; if the loader fails, the core is never
entered. -/
def boot (gpr : Reg → Word) (ps : Params) (images : List Image) : Result :=
  loadImages images (State.resetWith gpr ps)

/-! ### The host's side of the console port (R130, R201, R202) -/

/-- The host gives one more answer to a console request, now or in advance (R202). -/
def State.answer (s : State) (a : ConsoleAnswer) : State := { s with input := s.input ++ [a] }

/-- The host will accept `n` more bytes and then report an output failure; or, with `none`, report none
(R201). -/
def State.setOutRoom (s : State) (n : Option Nat) : State := { s with outRoom := n }

end Sys2Proof.Machine
end

