-- ==== Sys2Proof/Safety.lean ====
section
/-! DEFINITION. The states a run can be in, how a run ends (spec/40_fetch_execute.md R132), and what a step
leaves alone: the words in which the statements are made. -/

namespace Sys2Proof.Machine

/-! ### The invariant -/

/-- What a record says of the machine that raised it (R240, R241, R250, R253 to R256): the address is the
fetch address, PC holds the next one, an opcode is a reserved one and the word's own, an InvalidTrap's vector
is no routine's and a ConsoleIOError's is one, and both left the link in R7. -/
def ErrorRecord.consistent (e : ErrorRecord) (s : State) : Bool :=
  match e with
  | .invalidOpcode a op w =>
    decide (s.pc = a + 1#16) && decide (op = irOp w) && decide (op = Opcode.rti.bits ∨ op = Opcode.res.bits)
  | .invalidTrap a v => decide (s.pc = a + 1#16) && decide (s.reg .r7 = a + 1#16) && !vectorInService v
  | .consoleIOError a v => decide (s.pc = a + 1#16) && decide (s.reg .r7 = a + 1#16) && vectorInService v

/-- An error is recorded in HALTED only, and its record is consistent (R26, R27, R252). -/
def State.errOk (s : State) : Bool :=
  match s.err with
  | none => true
  | some e => decide (s.run = .halted) && e.consistent s

/-- A step is left unfinished in RUNNING only, with PC and R7 as the TRAP left them (R31, R126, R204). -/
def State.pendingOk (s : State) : Bool :=
  match s.pending with
  | none => true
  | some p =>
    decide (s.run = .running) && decide (s.pc = p.addr + 1#16) && decide (s.reg .r7 = p.addr + 1#16)

/-- The invariant of every run: canonical memory, and the two conditions above. -/
abbrev State.Inv (s : State) : Prop := s.mem.wf ∧ s.errOk = true ∧ s.pendingOk = true

/-! ### How a run ends -/

/-- The run has ended normally: the HALT routine (R132, R210). -/
def State.endedNormally (s : State) : Bool := decide (s.run = .halted) && decide (s.err = none)

/-- The run has ended abnormally: a fatal error (R132, R252). -/
def State.endedAbnormally (s : State) : Bool := decide (s.run = .halted) && decide (s.err ≠ none)

/-- A step is safe when it does not end the run abnormally. -/
def State.stepSafe (s : State) : Bool :=
  match step s with
  | .next t => !t.endedAbnormally
  | .fault _ => true
  | .refused _ => true

/-- `n` steps, up to the first that does not answer a next state. -/
def runSteps : Nat → State → Result
  | 0, s => .next s
  | n + 1, s =>
    match step s with
    | .next t => runSteps n t
    | .fault f => .fault f
    | .refused r => .refused r

/-! ### What is left alone -/

/-- Everything but the registers, PC and COND is the same: what an instruction leaves alone that neither
stores nor uses the console nor ends the run. -/
structure SameOutside (s t : State) : Prop where
  run : t.run = s.run
  err : t.err = s.err
  mem : ∀ a, t.load a = s.load a
  output : t.output = s.output
  input : t.input = s.input
  outRoom : t.outRoom = s.outRoom
  pending : t.pending = s.pending
  params : t.params = s.params

/-- A register write with its flags: `r` holds `v`, COND is `setcc v`, PC and every other register are the
same, and so is everything else. -/
structure WritesWithFlags (r : Reg) (v : Word) (s t : State) : Prop where
  value : t.reg r = v
  flags : t.cond = setcc v
  others : ∀ q, q ≠ r → t.reg q = s.reg q
  pc : t.pc = s.pc
  rest : SameOutside s t

/-- A store of the one word `v` at `a`: that cell holds `v`, every other cell and everything else is the
same. -/
structure StoresOneWord (a v : Word) (s t : State) : Prop where
  stored : t.load a = v
  otherCells : ∀ b, b ≠ a → t.load b = s.load b
  regs : ∀ q, t.reg q = s.reg q
  cond : t.cond = s.cond
  pc : t.pc = s.pc
  run : t.run = s.run
  err : t.err = s.err
  output : t.output = s.output
  input : t.input = s.input
  outRoom : t.outRoom = s.outRoom
  pending : t.pending = s.pending
  params : t.params = s.params

/-- A jump to `a` that links nothing: the registers, COND and everything else are the same. -/
structure JumpsTo (a : Word) (s t : State) : Prop where
  target : t.pc = a
  regs : ∀ q, t.reg q = s.reg q
  cond : t.cond = s.cond
  rest : SameOutside s t

/-- A call to `a`: the incremented PC is in R7, and every other register, COND and everything else are the
same. -/
structure CallsTo (a : Word) (s t : State) : Prop where
  target : t.pc = a
  link : t.reg .r7 = s.pc
  regs : ∀ q, q ≠ .r7 → t.reg q = s.reg q
  cond : t.cond = s.cond
  rest : SameOutside s t

/-- What a TRAP leaves that reads no character: the incremented PC in R7; every other register, COND, PC (still
fa + 1), every memory cell and the parameters as they were (R204, R259, R260). The run state, the latch and
the console are stated with the routine. -/
structure LinksOnly (s t : State) : Prop where
  link : t.reg .r7 = s.pc
  regs : ∀ q, q ≠ .r7 → t.reg q = s.reg q
  cond : t.cond = s.cond
  pc : t.pc = s.pc
  mem : ∀ a, t.load a = s.load a
  params : t.params = s.params

/-- What a TRAP leaves that reads the character `b`: the incremented PC in R7, `b` zero-extended in R0 with
its flags; every other register, PC, every memory cell and the parameters as they were (R205, R208). -/
structure LinksAndReads (b : Byte) (s t : State) : Prop where
  link : t.reg .r7 = s.pc
  value : t.reg .r0 = zext b
  flags : t.cond = setcc (zext b)
  regs : ∀ q, q ≠ .r0 → q ≠ .r7 → t.reg q = s.reg q
  pc : t.pc = s.pc
  mem : ∀ a, t.load a = s.load a
  params : t.params = s.params

/-- The registers, COND, PC (still fa + 1), every memory cell and the parameters are the same: what an invalid
opcode leaves (R253). -/
structure Untouched (s t : State) : Prop where
  regs : ∀ q, t.reg q = s.reg q
  cond : t.cond = s.cond
  pc : t.pc = s.pc
  mem : ∀ a, t.load a = s.load a
  params : t.params = s.params

/-- The run goes on, with no step left unfinished. -/
structure GoesOn (s t : State) : Prop where
  run : t.run = s.run
  err : t.err = s.err
  pending : t.pending = none

/-- The step is left unfinished, in the given routine (R126). -/
structure Holds (p : Pending) (s t : State) : Prop where
  run : t.run = s.run
  err : t.err = s.err
  pending : t.pending = some p

/-- The console ports hold these bytes, answers and room. -/
structure Console (output : List Byte) (input : List ConsoleAnswer) (room : Option Nat) (t : State) : Prop where
  output : t.output = output
  input : t.input = input
  outRoom : t.outRoom = room

/-- A fatal error `e`: the latch and HALTED (R252). Registers, COND, memory and the console are stated with
the instruction that raises it. -/
structure Raises (e : ErrorRecord) (t : State) : Prop where
  err : t.err = some e
  run : t.run = .halted
  pending : t.pending = none

/-! ### Strings in memory, as R207 and R209 describe them -/

/-- The `n` cells from `a` on hold no zero word. -/
def State.cellsNonzero (s : State) (a : Word) (n : Nat) : Prop :=
  ∀ k, k < n → s.load (a + BitVec.ofNat 16 k) ≠ 0x0000#16

/-- What PUTS gives for the `n` cells from `a` on: each cell's low byte (R207). -/
def State.putsText (s : State) (a : Word) (n : Nat) : List Byte :=
  (List.range n).map fun k => lowByte (s.load (a + BitVec.ofNat 16 k))

/-- What PUTSP gives for the cell at `a`: the low byte, then a nonzero high byte, or, where the parameter is
true and the cell is not the final one, a zero high byte (R209). -/
def State.packedPair (s : State) (a : Word) : List Byte :=
  lowByte (s.load a) ::
    if highByte (s.load a) ≠ 0x00#8 then [highByte (s.load a)]
    else if s.params.putspEmitZeroHighNonfinal = true ∧ s.load (a + 1#16) ≠ 0x0000#16 then [0x00#8]
    else []

/-- What PUTSP gives for the `n` cells from `a` on (R209). -/
def State.putspText (s : State) (a : Word) (n : Nat) : List Byte :=
  (List.range n).flatMap fun k => s.packedPair (a + BitVec.ofNat 16 k)

/-- The bytes of one lap of a string routine over a memory with no zero cell: all 65536 cells from R0 on; GETC
and IN have none. -/
def State.lapText (s : State) : Suspended → List Byte
  | .puts => s.putsText (s.reg .r0) 65536
  | .putsp => s.putspText (s.reg .r0) 65536
  | .getc => []
  | .inp => []

/-! ### Why a console operation fails -/

/-- The vector of an unfinished routine (R203). -/
def Suspended.vector : Suspended → BitVec 8
  | .getc => 0x20#8
  | .inp => 0x23#8
  | .puts => 0x22#8
  | .putsp => 0x24#8

/-- The step comes to a `ConsoleOut` that the host fails: it would output more bytes, at a host that never
fails, than this host accepts (R201, R255). -/
def State.outputFails (s : State) : Prop :=
  ∃ k, s.outRoom = some k ∧ k < (outBytes (stepEvents (s.setOutRoom none))).length

/-! ### What an instruction reads and writes -/

/-- The same machine with other condition flags. -/
def State.withCond (s : State) (c : Cond) : State := { s with cond := c }


/-- The registers an instruction may write (R21); a TRAP writes R7, and R0 if its routine reads a character. -/
def writtenRegs : Instr → List Reg
  | .add dr _ _ => [dr]
  | .addImm dr _ _ => [dr]
  | .and dr _ _ => [dr]
  | .andImm dr _ _ => [dr]
  | .not dr _ => [dr]
  | .br _ _ => []
  | .jmp _ => []
  | .ret => []
  | .jsr _ => [.r7]
  | .jsrr _ => [.r7]
  | .ld dr _ => [dr]
  | .ldi dr _ => [dr]
  | .ldr dr _ _ => [dr]
  | .lea dr _ => [dr]
  | .st _ _ => []
  | .sti _ _ => []
  | .str _ _ _ => []
  | .trap v => if v = 0x20#8 ∨ v = 0x23#8 then [.r7, .r0] else [.r7]
  | .getc => [.r7, .r0]
  | .out => [.r7]
  | .puts => [.r7]
  | .inp => [.r7, .r0]
  | .putsp => [.r7]
  | .halt => [.r7]
  | .trapInvalidVector _ => [.r7]
  | .rti _ => []
  | .res _ => []

/-- The register whose write sets COND (R25). -/
def flagReg : Instr → Option Reg
  | .add dr _ _ => some dr
  | .addImm dr _ _ => some dr
  | .and dr _ _ => some dr
  | .andImm dr _ _ => some dr
  | .not dr _ => some dr
  | .br _ _ => none
  | .jmp _ => none
  | .ret => none
  | .jsr _ => none
  | .jsrr _ => none
  | .ld dr _ => some dr
  | .ldi dr _ => some dr
  | .ldr dr _ _ => some dr
  | .lea dr _ => some dr
  | .st _ _ => none
  | .sti _ _ => none
  | .str _ _ _ => none
  | .trap v => if v = 0x20#8 ∨ v = 0x23#8 then some .r0 else none
  | .getc => some .r0
  | .out => none
  | .puts => none
  | .inp => some .r0
  | .putsp => none
  | .halt => none
  | .trapInvalidVector _ => none
  | .rti _ => none
  | .res _ => none

/-- The flag write of this instruction is the R0 write of a console routine, which happens only when the
host has answered with a byte (R205, R208). -/
def flagsFromConsole : Instr → Bool
  | .getc => true
  | .inp => true
  | .trap v => decide (v = 0x20#8 ∨ v = 0x23#8)
  | _ => false

/-- The instructions that write PC beyond the increment (R22). -/
def writesPc : Instr → Bool
  | .br _ _ => true
  | .jmp _ => true
  | .ret => true
  | .jsr _ => true
  | .jsrr _ => true
  | _ => false

/-- The instructions that write memory: ST, STI and STR (R53). -/
def storesMem : Instr → Bool
  | .st _ _ => true
  | .sti _ _ => true
  | .str _ _ _ => true
  | _ => false

end Sys2Proof.Machine
end

