-- ==== Sys2Proof/Certificates/Slice0/Obligations.lean ====
section
/-! DEFINITION. The statements for the provers. Where a statement gives an encoding, its bits stand in the order
of the spec's own line, most significant first; `x` and `y` are bits the format ignores (R97). `exec i s` is
the meaning at the state after the fetch and the PC increment, so `s.pc` is the incremented PC, and a
hypothesis `s.pc = fa + 1#16` names the fetch address. The opcode numbers in the encodings are the ones the
rules print; the spec marks their assignment as its own choice (D1, notes/assumptions/1). -/

open Sys2Proof Sys2Proof.Machine

/-! ### Encoding -/

/-- The decoder table of 95_test_vectors.md 2.2, word by word. -/
def Obligations.DecodesTheWordsOfTheDecoderTable : Prop :=
  decode 0x0000#16 = .br 0b000#3 0#9 ∧ decode 0x1040#16 = .add .r0 .r1 .r0 ∧
  decode 0x1048#16 = .add .r0 .r1 .r0 ∧ decode 0x1058#16 = .add .r0 .r1 .r0 ∧
  decode 0x1060#16 = .addImm .r0 .r1 0#5 ∧ decode 0x9040#16 = .not .r0 .r1 ∧
  decode 0xC000#16 = .jmp .r0 ∧ decode 0xCFFF#16 = .ret ∧ decode 0x4000#16 = .jsrr .r0 ∧
  decode 0x463F#16 = .jsrr .r0 ∧ decode 0x4E3F#16 = .jsr 0x63F#11 ∧ decode 0x4800#16 = .jsr 0#11 ∧
  decode 0xF125#16 = .halt ∧ decode 0x8FFF#16 = .rti 0xFFF#12 ∧ decode 0xD000#16 = .res 0#12

/-- The opcode map of R82, from general knowledge: the spec's D1 (notes/assumptions/1). -/
def Obligations.OpcodeMapIsTheSpecs : Prop :=
  Opcode.ofBits 0x0#4 = .br ∧ Opcode.ofBits 0x1#4 = .add ∧ Opcode.ofBits 0x2#4 = .ld ∧
  Opcode.ofBits 0x3#4 = .st ∧ Opcode.ofBits 0x4#4 = .jsr ∧ Opcode.ofBits 0x5#4 = .and ∧
  Opcode.ofBits 0x6#4 = .ldr ∧ Opcode.ofBits 0x7#4 = .str ∧ Opcode.ofBits 0x8#4 = .rti ∧
  Opcode.ofBits 0x9#4 = .not ∧ Opcode.ofBits 0xA#4 = .ldi ∧ Opcode.ofBits 0xB#4 = .sti ∧
  Opcode.ofBits 0xC#4 = .jmp ∧ Opcode.ofBits 0xD#4 = .res ∧ Opcode.ofBits 0xE#4 = .lea ∧
  Opcode.ofBits 0xF#4 = .trap

/-- Decoding the word of a well-formed instruction gives it back, with every operand at every value. -/
def Obligations.DecodeOfEncodeIsTheInstruction : Prop :=
  ∀ i : Instr, WellFormed i = true → decode (encode i) = i

/-- What the decoder gives for any word is well formed, and its canonical word decodes to it again. -/
def Obligations.EveryWordDecodesToAWellFormedInstruction : Prop :=
  ∀ w : Word, WellFormed (decode w) = true ∧ decode (encode (decode w)) = decode w

/-- R102, as the spec derives it (notes/assumptions/3): every word matches exactly one base row; within JMP,
BaseR = 7 is RET; within TRAP the vector picks one refinement row; and the word matches the row of the
instruction it decodes to. -/
def Obligations.EveryWordMatchesExactlyOneBaseRow : Prop :=
  ∀ w : Word,
    (baseRows.filter fun r => w &&& r.1 == r.2).length = 1 ∧
    matchesRow (decodeBase w) w = true ∧ matchesRow (decode w) w = true ∧
    (∀ r, decodeBase w = .jmp r → decode w = if r = .r7 then .ret else .jmp r) ∧
    (∀ v, decodeBase w = .trap v → decode w =
      if v = 0x20#8 then .getc else if v = 0x21#8 then .out else if v = 0x22#8 then .puts
      else if v = 0x23#8 then .inp else if v = 0x24#8 then .putsp else if v = 0x25#8 then .halt
      else .trapInvalidVector v)

/-- R97 (the spec's D2, notes/assumptions/10): the bits a format does not name are ignored. A word and the word
with those bits cleared decode to the same instruction; RTI and RES are RTI and RES whatever their twelve bits. -/
def Obligations.UnnamedBitsAreIgnored : Prop :=
  ∀ w : Word,
    (irOp w = 0x1#4 ∨ irOp w = 0x5#4 → irImode w = false → decode w = decode (w &&& 0xFFE7#16)) ∧
    (irOp w = 0x9#4 → decode w = decode (w &&& 0xFFC0#16)) ∧
    (irOp w = 0xC#4 → decode w = decode (w &&& 0xF1C0#16)) ∧
    (irOp w = 0x4#4 → irJmode w = false → decode w = decode (w &&& 0xF9C0#16)) ∧
    (irOp w = 0xF#4 → decode w = decode (w &&& 0xF0FF#16)) ∧
    (irOp w = 0x8#4 → ∃ low12, decode w = .rti low12) ∧
    (irOp w = 0xD#4 → ∃ low12, decode w = .res low12)

/-- R203: the trap vector decoder (native routines, no table in memory: the spec's D9, notes/assumptions/12). -/
def Obligations.TrapVectorDecoder : Prop :=
  ∀ v : BitVec 8, trapDecode v =
    if v = 0x20#8 then .getc else if v = 0x21#8 then .out else if v = 0x22#8 then .puts
    else if v = 0x23#8 then .inp else if v = 0x24#8 then .putsp else if v = 0x25#8 then .halt else .invalid

/-- R10: `sext_n(v) = if v[n-1] = 1 then v | (0xFFFF << n) else v`, for every width an operand has. -/
def Obligations.SignExtensionCopiesTheTopBit : Prop :=
  ∀ (n : Nat) (v : BitVec n), 0 < n → n ≤ 16 →
    sext v = if v.getLsbD (n - 1) = true then v.setWidth 16 ||| (0xFFFF#16 <<< n) else v.setWidth 16

/-! ### Flags -/

/-- R24: `setcc`, by the word as a signed quantity; and where COND's bits lie, one-hot, as R23 derives it. -/
def Obligations.SetccClassifiesTheSignedValue : Prop :=
  ∀ v : Word,
    (setcc v = .z ↔ v.toInt = 0) ∧ (setcc v = .n ↔ v.toInt < 0) ∧ (setcc v = .p ↔ 0 < v.toInt) ∧
    (setcc v).bits = if v = 0x0000#16 then 0b010#3 else if v.getLsbD 15 = true then 0b100#3 else 0b001#3

/-- R25: COND changes by `setcc` of the destination only, and only in the instructions R25 lists; no other
instruction and no loader writes it; a console routine that got no byte leaves it. And COND is read only by BR:
with any other COND, any other instruction does the same to everything else. -/
def Obligations.FlagsAreWrittenOnlyBySetcc : Prop :=
  (∀ (i : Instr) (s t : State), exec i s = .next t →
    (∀ r, flagReg i = some r → flagsFromConsole i = false → t.cond = setcc (t.reg r)) ∧
    (∀ r, flagReg i = some r → flagsFromConsole i = true →
      t.cond = setcc (t.reg r) ∨ (t.cond = s.cond ∧ t.reg r = s.reg r)) ∧
    (flagReg i = none → t.cond = s.cond)) ∧
  (∀ (p : Pending) (s : State),
    (resume p s).cond = s.cond ∨
    ((p.routine = .getc ∨ p.routine = .inp) ∧ (resume p s).cond = setcc ((resume p s).reg .r0))) ∧
  (∀ (img : Image) (s t : State), loadImage img s = .next t → t.cond = s.cond) ∧
  (∀ (i : Instr) (s t : State) (cond : Cond), (∀ nzp off9, i ≠ .br nzp off9) → exec i s = .next t →
    ∃ t', exec i (s.withCond cond) = .next t' ∧ t'.withCond t.cond = t) ∧
  ∀ (p : Pending) (s : State) (cond : Cond),
    (resume p (s.withCond cond)).withCond (resume p s).cond = resume p s

/-! ### Operate instructions -/

/-- R141. -/
def Obligations.AddRegisterResult : Prop :=
  (∀ (dr sr1 sr2 : Reg) (x : BitVec 2),
    decode (0b0001#4 ++ dr.bits ++ sr1.bits ++ 0#1 ++ x ++ sr2.bits) = .add dr sr1 sr2) ∧
  ∀ (dr sr1 sr2 : Reg) (s : State), ∃ t, exec (.add dr sr1 sr2) s = .next t ∧
    WritesWithFlags dr (s.reg sr1 + s.reg sr2) s t

/-- R142. -/
def Obligations.AddImmediateResult : Prop :=
  (∀ (dr sr1 : Reg) (imm5 : BitVec 5),
    decode (0b0001#4 ++ dr.bits ++ sr1.bits ++ 1#1 ++ imm5) = .addImm dr sr1 imm5) ∧
  ∀ (dr sr1 : Reg) (imm5 : BitVec 5) (s : State), ∃ t, exec (.addImm dr sr1 imm5) s = .next t ∧
    WritesWithFlags dr (s.reg sr1 + sext imm5) s t

/-- R143. -/
def Obligations.AndRegisterResult : Prop :=
  (∀ (dr sr1 sr2 : Reg) (x : BitVec 2),
    decode (0b0101#4 ++ dr.bits ++ sr1.bits ++ 0#1 ++ x ++ sr2.bits) = .and dr sr1 sr2) ∧
  ∀ (dr sr1 sr2 : Reg) (s : State), ∃ t, exec (.and dr sr1 sr2) s = .next t ∧
    WritesWithFlags dr (s.reg sr1 &&& s.reg sr2) s t

/-- R144. -/
def Obligations.AndImmediateResult : Prop :=
  (∀ (dr sr1 : Reg) (imm5 : BitVec 5),
    decode (0b0101#4 ++ dr.bits ++ sr1.bits ++ 1#1 ++ imm5) = .andImm dr sr1 imm5) ∧
  ∀ (dr sr1 : Reg) (imm5 : BitVec 5) (s : State), ∃ t, exec (.andImm dr sr1 imm5) s = .next t ∧
    WritesWithFlags dr (s.reg sr1 &&& sext imm5) s t

/-- R145; that ir[5:0] is ignored is the spec's D2 (notes/assumptions/10). -/
def Obligations.NotResult : Prop :=
  (∀ (dr sr : Reg) (x : BitVec 6), decode (0b1001#4 ++ dr.bits ++ sr.bits ++ x) = .not dr sr) ∧
  ∀ (dr sr : Reg) (s : State), ∃ t, exec (.not dr sr) s = .next t ∧
    WritesWithFlags dr (~~~ s.reg sr) s t

/-! ### Control transfer -/

/-- R150: taken and not taken. -/
def Obligations.BranchResult : Prop :=
  (∀ (nzp : BitVec 3) (off9 : BitVec 9), decode (0b0000#4 ++ nzp ++ off9) = .br nzp off9) ∧
  ∀ (nzp : BitVec 3) (off9 : BitVec 9) (s : State), ∃ t, exec (.br nzp off9) s = .next t ∧
    JumpsTo (if nzp &&& s.cond.bits ≠ 0b000#3 then s.pc + sext off9 else s.pc) s t

/-- R151: JMP, in the decoder's base row (the words with BaseR = 7 are RET's too: R102, R152). -/
def Obligations.JumpResult : Prop :=
  (∀ (x : BitVec 3) (base : Reg) (y : BitVec 6),
    decodeBase (0b1100#4 ++ x ++ base.bits ++ y) = .jmp base) ∧
  ∀ (base : Reg) (s : State), ∃ t, exec (.jmp base) s = .next t ∧ JumpsTo (s.reg base) s t

/-- R152. -/
def Obligations.ReturnResult : Prop :=
  (∀ (x : BitVec 3) (y : BitVec 6), decode (0b1100#4 ++ x ++ 0b111#3 ++ y) = .ret) ∧
  ∀ s : State, ∃ t, exec .ret s = .next t ∧ JumpsTo (s.reg .r7) s t

/-- R153. -/
def Obligations.CallResult : Prop :=
  (∀ off11 : BitVec 11, decode (0b0100#4 ++ 1#1 ++ off11) = .jsr off11) ∧
  ∀ (off11 : BitVec 11) (s : State), ∃ t, exec (.jsr off11) s = .next t ∧
    CallsTo (s.pc + sext off11) s t

/-- R154, at both values of the spec's parameter (D3, notes/assumptions/5). -/
def Obligations.CallThroughRegisterResult : Prop :=
  (∀ (x : BitVec 2) (base : Reg) (y : BitVec 6),
    decode (0b0100#4 ++ 0#1 ++ x ++ base.bits ++ y) = .jsrr base) ∧
  ∀ (base : Reg) (s : State), ∃ t, exec (.jsrr base) s = .next t ∧
    CallsTo (if s.params.jsrrBaseReadBeforeLink = false ∧ base = .r7 then s.pc else s.reg base) s t

/-! ### Loads, LEA and stores -/

/-- R170. -/
def Obligations.LoadResult : Prop :=
  (∀ (dr : Reg) (off9 : BitVec 9), decode (0b0010#4 ++ dr.bits ++ off9) = .ld dr off9) ∧
  ∀ (dr : Reg) (off9 : BitVec 9) (s : State), ∃ t, exec (.ld dr off9) s = .next t ∧
    WritesWithFlags dr (s.load (s.pc + sext off9)) s t

/-- R171. -/
def Obligations.LoadIndirectResult : Prop :=
  (∀ (dr : Reg) (off9 : BitVec 9), decode (0b1010#4 ++ dr.bits ++ off9) = .ldi dr off9) ∧
  ∀ (dr : Reg) (off9 : BitVec 9) (s : State), ∃ t, exec (.ldi dr off9) s = .next t ∧
    WritesWithFlags dr (s.load (s.load (s.pc + sext off9))) s t

/-- R172. -/
def Obligations.LoadBaseOffsetResult : Prop :=
  (∀ (dr base : Reg) (off6 : BitVec 6),
    decode (0b0110#4 ++ dr.bits ++ base.bits ++ off6) = .ldr dr base off6) ∧
  ∀ (dr base : Reg) (off6 : BitVec 6) (s : State), ∃ t, exec (.ldr dr base off6) s = .next t ∧
    WritesWithFlags dr (s.load (s.reg base + sext off6)) s t

/-- R173. -/
def Obligations.LoadEffectiveAddressResult : Prop :=
  (∀ (dr : Reg) (off9 : BitVec 9), decode (0b1110#4 ++ dr.bits ++ off9) = .lea dr off9) ∧
  ∀ (dr : Reg) (off9 : BitVec 9) (s : State), ∃ t, exec (.lea dr off9) s = .next t ∧
    WritesWithFlags dr (s.pc + sext off9) s t

/-- R174, in every state whose memory is canonical (`StepKeepsTheInvariant` says that a step keeps it so). -/
def Obligations.StoreResult : Prop :=
  (∀ (sr : Reg) (off9 : BitVec 9), decode (0b0011#4 ++ sr.bits ++ off9) = .st sr off9) ∧
  ∀ (sr : Reg) (off9 : BitVec 9) (s : State), s.mem.wf → ∃ t, exec (.st sr off9) s = .next t ∧
    StoresOneWord (s.pc + sext off9) (s.reg sr) s t

/-- R175, in every state whose memory is canonical. -/
def Obligations.StoreIndirectResult : Prop :=
  (∀ (sr : Reg) (off9 : BitVec 9), decode (0b1011#4 ++ sr.bits ++ off9) = .sti sr off9) ∧
  ∀ (sr : Reg) (off9 : BitVec 9) (s : State), s.mem.wf → ∃ t, exec (.sti sr off9) s = .next t ∧
    StoresOneWord (s.load (s.pc + sext off9)) (s.reg sr) s t

/-- R176, in every state whose memory is canonical. -/
def Obligations.StoreBaseOffsetResult : Prop :=
  (∀ (sr base : Reg) (off6 : BitVec 6),
    decode (0b0111#4 ++ sr.bits ++ base.bits ++ off6) = .str sr base off6) ∧
  ∀ (sr base : Reg) (off6 : BitVec 6) (s : State), s.mem.wf → ∃ t, exec (.str sr base off6) s = .next t ∧
    StoresOneWord (s.reg base + sext off6) (s.reg sr) s t

/-! ### TRAP and its routines -/

/-- R204: the link, then the routine that the vector decoder selects; PC is not written, and only GETC and IN
touch R0 and COND. That the routines are native, and R7 comes before the vector, is the spec's D8 and D9
(notes/assumptions/11, 12). -/
def Obligations.TrapLinksAndDispatches : Prop :=
  (∀ (x : BitVec 4) (v : BitVec 8), decode (0b1111#4 ++ x ++ v) = refine (.trap v)) ∧
  ∀ (v : BitVec 8) (s : State), ∃ t, exec (.trap v) s = .next t ∧
    t.reg .r7 = s.pc ∧ t.pc = s.pc ∧ (∀ q, q ≠ .r0 → q ≠ .r7 → t.reg q = s.reg q) ∧
    (v ≠ 0x20#8 → v ≠ 0x23#8 → t.reg .r0 = s.reg .r0 ∧ t.cond = s.cond) ∧
    (∀ a, t.load a = s.load a) ∧ t.params = s.params ∧
    (trapDecode v = .getc → exec .getc s = .next t) ∧ (trapDecode v = .out → exec .out s = .next t) ∧
    (trapDecode v = .puts → exec .puts s = .next t) ∧ (trapDecode v = .inp → exec .inp s = .next t) ∧
    (trapDecode v = .putsp → exec .putsp s = .next t) ∧ (trapDecode v = .halt → exec .halt s = .next t) ∧
    (trapDecode v = .invalid → exec (.trapInvalidVector v) s = .next t)

/-- R205: a byte, an end or failure, and the wait (the model's form of the hold: notes/assumptions/6). -/
def Obligations.GetcResult : Prop :=
  (∀ x : BitVec 4, decode (0b1111#4 ++ x ++ 0x20#8) = .getc) ∧
  ∀ (fa : Word) (s : State), s.pc = fa + 1#16 →
    (∀ b rest, s.input = .byte b :: rest → ∃ t, exec .getc s = .next t ∧
      LinksAndReads b s t ∧ GoesOn s t ∧ Console s.output rest s.outRoom t) ∧
    (∀ rest, s.input = .failure :: rest → ∃ t, exec .getc s = .next t ∧
      LinksOnly s t ∧ Raises (.consoleIOError fa 0x20#8) t ∧ Console s.output rest s.outRoom t) ∧
    (s.input = [] → ∃ t, exec .getc s = .next t ∧
      LinksOnly s t ∧ Holds ⟨.getc, fa⟩ s t ∧ Console s.output [] s.outRoom t)

/-- R206: the byte accepted, and not (the model's form of an output failure: notes/assumptions/9). -/
def Obligations.OutResult : Prop :=
  (∀ x : BitVec 4, decode (0b1111#4 ++ x ++ 0x21#8) = .out) ∧
  ∀ (fa : Word) (s : State), s.pc = fa + 1#16 →
    (s.outRoom ≠ some 0 → ∃ t, exec .out s = .next t ∧ LinksOnly s t ∧ GoesOn s t ∧
      Console (s.output ++ [lowByte (s.reg .r0)]) s.input (s.outRoom.map (· - 1)) t) ∧
    (s.outRoom = some 0 → ∃ t, exec .out s = .next t ∧ LinksOnly s t ∧
      Raises (.consoleIOError fa 0x21#8) t ∧ Console s.output s.input (some 0) t)

/-- R207: the low bytes of the cells before the first zero cell, or those accepted before the first failure
(notes/assumptions/9). The string without end is `StringWithoutEndNeverFinishes`. -/
def Obligations.PutsResult : Prop :=
  (∀ x : BitVec 4, decode (0b1111#4 ++ x ++ 0x22#8) = .puts) ∧
  ∀ (fa : Word) (s : State) (n : Nat), s.pc = fa + 1#16 → s.cellsNonzero (s.reg .r0) n →
    (n < 65536 → s.load (s.reg .r0 + BitVec.ofNat 16 n) = 0x0000#16 → s.outAccepts n = true →
      ∃ t, exec .puts s = .next t ∧ LinksOnly s t ∧ GoesOn s t ∧
        Console (s.output ++ s.putsText (s.reg .r0) n) s.input (s.outRoom.map (· - n)) t) ∧
    (∀ k, n ≤ 65536 → s.outRoom = some k → k < n → ∃ t, exec .puts s = .next t ∧ LinksOnly s t ∧
      Raises (.consoleIOError fa 0x22#8) t ∧
        Console (s.output ++ (s.putsText (s.reg .r0) n).take k) s.input (some 0) t)

/-- R209, at both values of the spec's parameter (D10, notes/assumptions/5; failures: notes/assumptions/9). -/
def Obligations.PutspResult : Prop :=
  (∀ x : BitVec 4, decode (0b1111#4 ++ x ++ 0x24#8) = .putsp) ∧
  ∀ (fa : Word) (s : State) (n : Nat), s.pc = fa + 1#16 → s.cellsNonzero (s.reg .r0) n →
    (n < 65536 → s.load (s.reg .r0 + BitVec.ofNat 16 n) = 0x0000#16 →
      s.outAccepts (s.putspText (s.reg .r0) n).length = true →
      ∃ t, exec .putsp s = .next t ∧ LinksOnly s t ∧ GoesOn s t ∧
        Console (s.output ++ s.putspText (s.reg .r0) n) s.input
          (s.outRoom.map (· - (s.putspText (s.reg .r0) n).length)) t) ∧
    (∀ k, n ≤ 65536 → s.outRoom = some k → k < (s.putspText (s.reg .r0) n).length →
      ∃ t, exec .putsp s = .next t ∧ LinksOnly s t ∧ Raises (.consoleIOError fa 0x24#8) t ∧
        Console (s.output ++ (s.putspText (s.reg .r0) n).take k) s.input (some 0) t)

/-- A string without end (R207, R209; one lap of all 65536 cells a step is the model's own form of the spec's "hang
inside one step", notes/assumptions/7). When no cell of memory is zero, PUTS and PUTSP give one lap and are left
unfinished. In every such unfinished state a step gives one more lap and changes nothing else; or, where the
host accepts only `k` bytes and that is less than a lap, those bytes and the ConsoleIOError, by the same fetch
address. So for a host that never fails, the state after any number of further steps is the same but for that
many laps in the output. -/
def Obligations.StringWithoutEndNeverFinishes : Prop :=
  (∀ (fa : Word) (s : State), s.pc = fa + 1#16 → (∀ a, s.load a ≠ 0x0000#16) →
    (s.outAccepts (s.lapText .puts).length = true → ∃ t, exec .puts s = .next t ∧ LinksOnly s t ∧
      Holds ⟨.puts, fa⟩ s t ∧ Console (s.output ++ s.lapText .puts) s.input
        (s.outRoom.map (· - (s.lapText .puts).length)) t) ∧
    (s.outAccepts (s.lapText .putsp).length = true → ∃ t, exec .putsp s = .next t ∧ LinksOnly s t ∧
      Holds ⟨.putsp, fa⟩ s t ∧ Console (s.output ++ s.lapText .putsp) s.input
        (s.outRoom.map (· - (s.lapText .putsp).length)) t)) ∧
  ∀ (p : Pending) (s : State), s.run = .running → s.pending = some p →
    p.routine = .puts ∨ p.routine = .putsp → (∀ a, s.load a ≠ 0x0000#16) →
    (s.outAccepts (s.lapText p.routine).length = true →
      step s = .next { s with
        output := s.output ++ s.lapText p.routine
        outRoom := s.outRoom.map (· - (s.lapText p.routine).length) }) ∧
    (∀ k, s.outRoom = some k → k < (s.lapText p.routine).length →
      step s = .next { s with
        output := s.output ++ (s.lapText p.routine).take k
        outRoom := some 0
        err := some (.consoleIOError p.addr p.routine.vector)
        run := .halted
        pending := none }) ∧
    (s.outRoom = none → ∀ n, runSteps n s =
      .next { s with output := s.output ++ (List.replicate n (s.lapText p.routine)).flatten })

/-- R208: the prompt, then a byte with its echo, an end or failure, or the wait; and an output failure at the
echo and in the prompt. The prompt is the spec's parameter (D14, notes/assumptions/5); the wait and the failures
have the model's form (notes/assumptions/6, 9). -/
def Obligations.InResult : Prop :=
  (∀ x : BitVec 4, decode (0b1111#4 ++ x ++ 0x23#8) = .inp) ∧
  ∀ (fa : Word) (s : State), s.pc = fa + 1#16 →
    (∀ b rest, s.input = .byte b :: rest → s.outAccepts (s.params.inPrompt.length + 1) = true →
      ∃ t, exec .inp s = .next t ∧ LinksAndReads b s t ∧ GoesOn s t ∧
        Console (s.output ++ s.params.inPrompt ++ [b]) rest
          (s.outRoom.map (· - (s.params.inPrompt.length + 1))) t) ∧
    (∀ rest, s.input = .failure :: rest → s.outAccepts s.params.inPrompt.length = true →
      ∃ t, exec .inp s = .next t ∧ LinksOnly s t ∧ Raises (.consoleIOError fa 0x23#8) t ∧
        Console (s.output ++ s.params.inPrompt) rest (s.outRoom.map (· - s.params.inPrompt.length)) t) ∧
    (s.input = [] → s.outAccepts s.params.inPrompt.length = true →
      ∃ t, exec .inp s = .next t ∧ LinksOnly s t ∧ Holds ⟨.inp, fa⟩ s t ∧
        Console (s.output ++ s.params.inPrompt) [] (s.outRoom.map (· - s.params.inPrompt.length)) t) ∧
    (∀ b rest, s.input = .byte b :: rest → s.outRoom = some s.params.inPrompt.length →
      ∃ t, exec .inp s = .next t ∧ LinksOnly s t ∧ Raises (.consoleIOError fa 0x23#8) t ∧
        Console (s.output ++ s.params.inPrompt) rest (some 0) t) ∧
    (∀ k, s.outRoom = some k → k < s.params.inPrompt.length →
      ∃ t, exec .inp s = .next t ∧ LinksOnly s t ∧ Raises (.consoleIOError fa 0x23#8) t ∧
        Console (s.output ++ s.params.inPrompt.take k) s.input (some 0) t)

/-- R210: the notice, then HALTED with the latch as it was; and an output failure in the notice. The notice is
the spec's parameter (D13, notes/assumptions/5). And no other instruction, and no unfinished step going on, is a
way to HALTED without an error. -/
def Obligations.HaltResult : Prop :=
  (∀ x : BitVec 4, decode (0b1111#4 ++ x ++ 0x25#8) = .halt) ∧
  ∀ (fa : Word) (s : State), s.pc = fa + 1#16 →
    (s.outAccepts s.params.haltNotice.length = true →
      ∃ t, exec .halt s = .next t ∧ LinksOnly s t ∧ t.run = .halted ∧ t.err = s.err ∧ t.pending = none ∧
        Console (s.output ++ s.params.haltNotice) s.input
          (s.outRoom.map (· - s.params.haltNotice.length)) t) ∧
    (∀ k, s.outRoom = some k → k < s.params.haltNotice.length →
      ∃ t, exec .halt s = .next t ∧ LinksOnly s t ∧ Raises (.consoleIOError fa 0x25#8) t ∧
        Console (s.output ++ s.params.haltNotice.take k) s.input (some 0) t) ∧
    (∀ (i : Instr) (t : State), s.run = .running → exec i s = .next t → t.run = .halted → t.err = none →
      i = .halt ∨ i = .trap 0x25#8) ∧
    (∀ p : Pending, s.run = .running → (resume p s).run = .halted → (resume p s).err ≠ none)

/-- R211: an invalid vector; that R7 is written first is the spec's D8 (notes/assumptions/11). -/
def Obligations.InvalidVectorResult : Prop :=
  (∀ (x : BitVec 4) (v : BitVec 8), v < 0x20#8 ∨ 0x25#8 < v →
    decode (0b1111#4 ++ x ++ v) = .trapInvalidVector v) ∧
  ∀ (v : BitVec 8) (fa : Word) (s : State), s.pc = fa + 1#16 →
    ∃ t, exec (.trapInvalidVector v) s = .next t ∧ LinksOnly s t ∧ Raises (.invalidTrap fa v) t ∧
      Console s.output s.input s.outRoom t

/-- R240; the state and the record after the error are the spec's D7 (notes/assumptions/11). -/
def Obligations.RtiIsInvalid : Prop :=
  (∀ x : BitVec 12, decode (0b1000#4 ++ x) = .rti x) ∧
  ∀ (x : BitVec 12) (fa : Word) (s : State), s.pc = fa + 1#16 →
    ∃ t, exec (.rti x) s = .next t ∧ Untouched s t ∧ Raises (.invalidOpcode fa 0x8#4 (0b1000#4 ++ x)) t ∧
      Console s.output s.input s.outRoom t

/-- R241; the state and the record after the error are the spec's D7 (notes/assumptions/11). -/
def Obligations.ResIsInvalid : Prop :=
  (∀ x : BitVec 12, decode (0b1101#4 ++ x) = .res x) ∧
  ∀ (x : BitVec 12) (fa : Word) (s : State), s.pc = fa + 1#16 →
    ∃ t, exec (.res x) s = .next t ∧ Untouched s t ∧ Raises (.invalidOpcode fa 0xD#4 (0b1101#4 ++ x)) t ∧
      Console s.output s.input s.outRoom t

/-- A refinement row of the table does what its base row does (spec/INDEX.md, R109, R152, R204). -/
def Obligations.RefinementRowsKeepTheirBaseRowsMeaning : Prop :=
  ∀ (i : Instr) (s : State), exec (refine i) s = exec i s

/-- Waiting is transparent (R126, R202; the form of the hold is the model's, notes/assumptions/6): while GETC or
IN waits there is no successor, whatever else the host does, and when the host answers, the next step ends
exactly as the instruction would have with the answer there before. -/
def Obligations.WaitingForTheConsoleIsTransparent : Prop :=
  ∀ (i : Instr) (s h : State), i = .getc ∨ i = .inp → s.run = .running → s.pending = none → s.input = [] →
    exec i s = .next h → h.pending ≠ none →
    step h = .fault .waiting ∧ (∀ n, step (h.setOutRoom n) = .fault .waiting) ∧
    ∀ a, step (h.answer a) = exec i (s.answer a)

/-! ### Memory -/

/-- R53: a write sets its cell and no other; during execution only ST, STI and STR write memory. -/
def Obligations.OnlyStoresWriteMemory : Prop :=
  (∀ (m : Memory) (a v : Word), m.wf →
    (m.write a v).read a = v ∧ ∀ b, b ≠ a → (m.write a v).read b = m.read b) ∧
  (∀ (i : Instr) (s t : State), exec i s = .next t → storesMem i = false → t.mem = s.mem) ∧
  ∀ (p : Pending) (s : State), (resume p s).mem = s.mem

/-- The canonical form is one list for one memory: canonical memories that read alike are equal. -/
def Obligations.CanonicalMemoriesThatReadAlikeAreEqual : Prop :=
  ∀ m n : Memory, m.wf → n.wf → (∀ a, m.read a = n.read a) → m = n

/-- R66, as the spec derives it: a store to the next word is what the next step fetches. -/
def Obligations.StoreToTheNextWordIsFetchedNext : Prop :=
  ∀ (s t : State) (sr : Reg), s.mem.wf → s.run = .running → s.pending = none →
    decode s.fetch = .st sr 0#9 → step s = .next t →
    t.pc = s.pc + 1#16 ∧ t.fetch = s.reg sr ∧ step t = exec (decode (s.reg sr)) t.incPc

/-- R61, R62: memory after a step is memory with the writes of the step's history, and the console output
after it is the output before with the history's bytes: nothing else reaches memory or the console. -/
def Obligations.MemoryAndOutputAreTheHistorysReplay : Prop :=
  ∀ s t : State, step s = .next t →
    t.mem = applyWrites (stepEvents s) s.mem ∧ t.output = s.output ++ outBytes (stepEvents s)

/-- R60, R62: a step reads no cell of memory but those its history lists. Change any other cells, and the step
has the same history and leaves the same state but for memory. -/
def Obligations.StepReadsOnlyTheCellsOfItsHistory : Prop :=
  ∀ (s t : State) (m : Memory), (∀ a, a ∈ readAddrs (stepEvents s) → m.read a = s.load a) →
    step s = .next t →
    stepEvents { s with mem := m } = stepEvents s ∧
    ∃ t', step { s with mem := m } = .next t' ∧ { t' with mem := t.mem } = t

/-! ### The step and the whole machine -/

/-- R120, R121, R122, R124: fetch at PC, the increment, then the decoded instruction; an unfinished step goes
on instead (R126), but for a hold of GETC or IN that the host has not answered. -/
def Obligations.StepRunsTheDecodedInstruction : Prop :=
  (∀ (s : State) (i : Instr), s.run = .running → s.pending = none → decode (s.load s.pc) = i →
    step s = exec i { s with pc := s.pc + 1#16 }) ∧
  ∀ (s : State) (p : Pending), s.run = .running → s.pending = some p →
    (p.routine = .puts ∨ p.routine = .putsp ∨ s.input ≠ [] → step s = .next (resume p s)) ∧
    (p.routine = .getc ∨ p.routine = .inp → s.input = [] → step s = .fault .waiting)

/-- The host's placing of a word: the next step runs exactly that word. -/
def Obligations.PlacedWordIsTheNextInstruction : Prop :=
  ∀ (s : State) (w : Word), s.mem.wf →
    step (s.withFetchWord 16 w.toNat) = exec (decode w) (s.withFetchWord 16 w.toNat).incPc ∧
    decodeTableWord 16 w.toNat = some (decode w)

/-- R127, R126, R51: in HALTED there is no step (the model's fault `halted`: notes/assumptions/8), and in a hold of
GETC or IN without an answer there is no successor (the model's fault `waiting`: notes/assumptions/6). In every
other state the step answers a next state. -/
def Obligations.StepStopsExactlyWhenHaltedOrWaiting : Prop :=
  ∀ s : State,
    (s.run = .halted → step s = .fault .halted) ∧
    (∀ p, s.run = .running → s.pending = some p → p.routine = .getc ∨ p.routine = .inp → s.input = [] →
      step s = .fault .waiting) ∧
    (s.run = .running →
      (∀ p, s.pending = some p → p.routine = .getc ∨ p.routine = .inp → s.input ≠ []) → ∃ t, step s = .next t)

/-- R32, R292: the reset values for every `gpr_reset` and parameters (the spec's D4, D15, D19), memory all zero and
then the images; and that the model's reset state is this at the defaults (notes/assumptions/4, 5). -/
def Obligations.ResetValues : Prop :=
  (∀ (gpr : Reg → Word) (ps : Params) (images : List Image) (s : State), boot gpr ps images = .next s →
    (∀ r, s.reg r = gpr r) ∧ s.pc = 0x3000#16 ∧ s.cond = .z ∧ s.run = .running ∧ s.err = none ∧
    s.output = [] ∧ s.pending = none ∧ s.params = ps ∧
    s.mem = images.foldl (fun (m : Memory) img => m.writeWords img.origin img.words) []) ∧
  (∀ a, Memory.read [] a = 0x0000#16) ∧
  boot Config.gprReset Config.params Config.imageList = .next State.reset

/-- R294, with the spec's D17 (notes/assumptions/17): an image's words at consecutive addresses from its origin,
every other cell and everything else as before; an image past 0xFFFF is refused; the words of a file are
big-endian, and a file cut inside a word is refused; images go in the order given. -/
def Obligations.LoaderPlacesAnImage : Prop :=
  (∀ (img : Image) (s : State), s.mem.wf → img.origin.toNat + img.words.length ≤ 65536 →
    ∃ t, loadImage img s = .next t ∧ t.mem.wf ∧ t = { s with mem := t.mem } ∧
      (∀ k (hk : k < img.words.length), t.load (img.origin + BitVec.ofNat 16 k) = img.words[k]) ∧
      ∀ a : Word, (∀ k, k < img.words.length → a ≠ img.origin + BitVec.ofNat 16 k) → t.load a = s.load a) ∧
  (∀ (img : Image) (s : State), 65536 < img.origin.toNat + img.words.length →
    loadImage img s = .refused .imagePastEnd) ∧
  (∀ (o : Word) (ws : List Word) (s : State),
    loadFile ((o :: ws).flatMap fun w => [highByte w, lowByte w]) s = loadImage ⟨o, ws⟩ s) ∧
  (∀ (bs : List Byte) (s : State), bs.length % 2 = 1 → loadFile bs s = .refused .imageLoadError) ∧
  ∀ (imgs : List Image) (img : Image) (s t : State), loadImages imgs s = .next t →
    loadImages (imgs ++ [img]) s = loadImage img t

/-- The invariant holds at reset, for every register value and parameters. -/
def Obligations.ResetMeetsTheInvariant : Prop :=
  (∀ (gpr : Reg → Word) (ps : Params), (State.resetWith gpr ps).Inv) ∧ State.reset.Inv

/-- A step keeps the invariant: memory canonical, an error recorded in HALTED only and true of the machine, a
step left unfinished in RUNNING only, as its TRAP left PC and R7. -/
def Obligations.StepKeepsTheInvariant : Prop :=
  ∀ s t : State, s.Inv → step s = .next t → t.Inv

/-- What the host does keeps the invariant: an answer, an output limit, an image. -/
def Obligations.HostKeepsTheInvariant : Prop :=
  ∀ s : State, s.Inv → (∀ a, (s.answer a).Inv) ∧ (∀ n, (s.setOutRoom n).Inv) ∧
    ∀ img t, loadImage img s = .next t → t.Inv

/-- R126, R210, R250, R253 to R256, with the spec's D7, D8, D12, D19 (notes/assumptions/6, 7, 9, 11): each way a
step can end the run or stay unfinished has the cause the spec gives it, and the record names the instruction
at the fetch address. A ConsoleIOError comes from the TRAP just fetched or from the unfinished one, with its
address and vector, and from an output that the host failed, or, in GETC and IN, from an input that it failed. -/
def Obligations.EachEndHasItsCause : Prop :=
  ∀ s t : State, s.Inv → step s = .next t →
    (∀ a op w, t.err = some (.invalidOpcode a op w) →
      s.pending = none ∧ a = s.pc ∧ w = s.fetch ∧ op = irOp s.fetch ∧ (op = 0x8#4 ∨ op = 0xD#4)) ∧
    (∀ a v, t.err = some (.invalidTrap a v) →
      s.pending = none ∧ a = s.pc ∧ irOp s.fetch = 0xF#4 ∧ v = irVect8 s.fetch ∧
      (v < 0x20#8 ∨ 0x25#8 < v)) ∧
    (∀ a v, t.err = some (.consoleIOError a v) →
      ((s.pending = none ∧ a = s.pc ∧ irOp s.fetch = 0xF#4 ∧ v = irVect8 s.fetch) ∨
        ∃ p, s.pending = some p ∧ a = p.addr ∧ v = p.routine.vector) ∧
      (0x20#8 ≤ v ∧ v ≤ 0x25#8) ∧ t.pc = a + 1#16 ∧
      ((s.outputFails ∧ v ≠ 0x20#8 ∧ t.outRoom = some 0) ∨
        (¬ s.outputFails ∧ (v = 0x20#8 ∨ v = 0x23#8) ∧ s.input = .failure :: t.input))) ∧
    (t.run = .halted → t.err = none →
      s.pending = none ∧ irOp s.fetch = 0xF#4 ∧ irVect8 s.fetch = 0x25#8) ∧
    (∀ p, t.pending = some p →
      ((s.pending = none ∧ p.addr = s.pc ∧ irOp s.fetch = 0xF#4 ∧ irVect8 s.fetch = p.routine.vector) ∨
        s.pending = some p) ∧
      (p.routine = .getc ∨ p.routine = .inp → s.pending = none ∧ s.input = []) ∧
      (p.routine = .puts ∨ p.routine = .putsp → ∀ a, s.load a ≠ 0x0000#16))

/-- R21, its `writes` column, as the spec derives it: an instruction writes no register but those the table
gives it. -/
def Obligations.OnlyTheListedRegistersAreWritten : Prop :=
  ∀ (i : Instr) (s t : State), exec i s = .next t → ∀ q, q ∉ writtenRegs i → t.reg q = s.reg q

/-- R22 (for TRAP the spec's D9, notes/assumptions/12): beyond the increment, PC is written only by BR, JMP, RET,
JSR and JSRR; no other instruction moves it, and an unfinished step does not. -/
def Obligations.OnlyControlTransfersWritePc : Prop :=
  (∀ (i : Instr) (s t : State), exec i s = .next t → writesPc i = false → t.pc = s.pc) ∧
  ∀ (p : Pending) (s : State), (resume p s).pc = s.pc

/-- No step changes the open parameters, and a step takes at most one answer of the host's, the oldest, and
never adds one (R6, R202). -/
def Obligations.StepTakesAtMostOneAnswer : Prop :=
  ∀ s t : State, step s = .next t → t.params = s.params ∧ (t.input = s.input ∨ t.input = s.input.tail)
end

