-- ==== Sys2Proof/Laws/Decode.lean ====
section
/-! SUPPORT. The small lemmas of the decoder and the encoder: a field read from a word that was put together
from fields is that field (spec/30_encoding.md R83, R96). -/

namespace Sys2Proof

@[simp] theorem Reg.ofBits_bits (r : Reg) : Reg.ofBits r.bits = r := by cases r <;> rfl

theorem Reg.bits_ofBits : ∀ b : BitVec 3, (Reg.ofBits b).bits = b := by decide

@[simp] theorem Opcode.ofBits_bits (op : Opcode) : Opcode.ofBits op.bits = op := by cases op <;> rfl

theorem Opcode.bits_ofBits : ∀ b : BitVec 4, (Opcode.ofBits b).bits = b := by decide

/-- The vector decoder answers `invalid` exactly outside the six vectors (R99, R203). -/
theorem trapDecode_eq_invalid_iff :
    ∀ v : BitVec 8, trapDecode v = .invalid ↔ vectorInService v = false := by decide

/-! ### Fields of a word put together from fields -/

/-- The upper part of an append. -/
theorem extractLsb'_append_high {m n : Nat} (a : BitVec m) (b : BitVec n) (lo len : Nat) (h : n ≤ lo) :
    (a ++ b).extractLsb' lo len = a.extractLsb' (lo - n) len := by
  ext j hj
  simp only [BitVec.getElem_extractLsb', BitVec.getLsbD_append]
  rw [if_neg (by omega)]
  congr 1
  omega

/-- The lower part of an append. -/
theorem extractLsb'_append_low {m n : Nat} (a : BitVec m) (b : BitVec n) (lo len : Nat) (h : lo + len ≤ n) :
    (a ++ b).extractLsb' lo len = b.extractLsb' lo len := by
  ext j hj
  simp only [BitVec.getElem_extractLsb', BitVec.getLsbD_append]
  rw [if_pos (by omega)]

/-- A whole vector. -/
theorem extractLsb'_whole {n : Nat} (a : BitVec n) : a.extractLsb' 0 n = a := by
  ext j hj
  simp

theorem encode39_irOp (op : Opcode) (f : BitVec 3) (g : BitVec 9) : irOp (encode39 op f g) = op.bits := by
  unfold irOp encode39
  rw [extractLsb'_append_high _ _ _ _ (by omega), extractLsb'_append_high _ _ _ _ (by omega)]
  exact extractLsb'_whole _

theorem encode39_mid (op : Opcode) (f : BitVec 3) (g : BitVec 9) : (encode39 op f g).extractLsb' 9 3 = f := by
  unfold encode39
  rw [extractLsb'_append_high _ _ _ _ (by omega), extractLsb'_append_low _ _ _ _ (by omega)]
  exact extractLsb'_whole _

theorem encode39_low (op : Opcode) (f : BitVec 3) (g : BitVec 9) : (encode39 op f g).extractLsb' 0 9 = g := by
  unfold encode39
  rw [extractLsb'_append_low _ _ _ _ (by omega)]
  exact extractLsb'_whole _

theorem encode336_irOp (op : Opcode) (f g : BitVec 3) (l : BitVec 6) : irOp (encode336 op f g l) = op.bits := by
  unfold irOp encode336
  rw [extractLsb'_append_high _ _ _ _ (by omega), extractLsb'_append_high _ _ _ _ (by omega),
    extractLsb'_append_high _ _ _ _ (by omega)]
  exact extractLsb'_whole _

theorem encode336_f (op : Opcode) (f g : BitVec 3) (l : BitVec 6) :
    (encode336 op f g l).extractLsb' 9 3 = f := by
  unfold encode336
  rw [extractLsb'_append_high _ _ _ _ (by omega), extractLsb'_append_high _ _ _ _ (by omega),
    extractLsb'_append_low _ _ _ _ (by omega)]
  exact extractLsb'_whole _

theorem encode336_g (op : Opcode) (f g : BitVec 3) (l : BitVec 6) :
    (encode336 op f g l).extractLsb' 6 3 = g := by
  unfold encode336
  rw [extractLsb'_append_high _ _ _ _ (by omega), extractLsb'_append_low _ _ _ _ (by omega)]
  exact extractLsb'_whole _

theorem encode336_low (op : Opcode) (f g : BitVec 3) (l : BitVec 6) (lo len : Nat) (h : lo + len ≤ 6) :
    (encode336 op f g l).extractLsb' lo len = l.extractLsb' lo len := by
  unfold encode336
  rw [extractLsb'_append_low _ _ _ _ h]

theorem encodeTrap_irOp (v : BitVec 8) : irOp (encodeTrap v) = Opcode.trap.bits := by
  unfold irOp encodeTrap
  rw [extractLsb'_append_high _ _ _ _ (by omega), extractLsb'_append_high _ _ _ _ (by omega)]
  exact extractLsb'_whole _

theorem encodeTrap_irVect8 (v : BitVec 8) : irVect8 (encodeTrap v) = v := by
  unfold irVect8 encodeTrap
  rw [extractLsb'_append_low _ _ _ _ (by omega)]
  exact extractLsb'_whole _

end Sys2Proof
end

