-- ==== Sys2Proof/Laws/Memory.lean ====
section
/-! SUPPORT. The laws of memory: read after write, the canonical form, and that equal memories are equal lists
(spec/20_memory.md R52, R53). -/

namespace Sys2Proof.Machine

theorem Memory.wf_nil : Memory.wf [] := by simp [Memory.wf]

theorem Memory.wf_tail {c : Nat × Word} {t : Memory} (h : Memory.wf (c :: t)) : t.wf :=
  ⟨(List.pairwise_cons.1 h.1).2, fun d hd => h.2 d (List.mem_cons_of_mem _ hd)⟩

/-- Below every listed address, a cell reads the reset contents. -/
theorem Memory.cellAt_of_lt {m : Memory} {a : Nat} (h : ∀ c ∈ m, a < c.1) : m.cellAt a = 0x0000#16 := by
  induction m with
  | nil => rfl
  | cons c t ih =>
    have hc := h c (by simp)
    simp [Memory.cellAt, Nat.ne_of_gt hc, ih fun d hd => h d (List.mem_cons_of_mem _ hd)]

theorem Memory.cellAt_putCell_same {m : Memory} (h : m.wf) (a : Nat) (v : Word) :
    (m.putCell a v).cellAt a = v := by
  induction m with
  | nil => by_cases hv : v = 0x0000#16 <;> simp [Memory.putCell, Memory.cellAt, hv]
  | cons c t ih =>
    obtain ⟨k, w⟩ := c
    have htail := (List.pairwise_cons.1 h.1).1
    have below : a ≤ k → Memory.cellAt t a = 0x0000#16 := fun hk =>
      Memory.cellAt_of_lt fun d hd => Nat.lt_of_le_of_lt hk (htail d hd)
    rcases Nat.lt_trichotomy a k with hlt | heq | hgt
    · by_cases hv : v = 0x0000#16 <;>
        simp [Memory.putCell, Memory.cellAt, hlt, hv, Nat.ne_of_gt hlt, below (Nat.le_of_lt hlt)]
    · subst heq
      by_cases hv : v = 0x0000#16 <;> simp [Memory.putCell, Memory.cellAt, hv, below (Nat.le_refl a)]
    · simp [Memory.putCell, Memory.cellAt, Nat.not_lt_of_gt hgt, Nat.ne_of_gt hgt, Nat.ne_of_lt hgt,
        ih (Memory.wf_tail h)]

theorem Memory.cellAt_putCell_other (m : Memory) {a b : Nat} (v : Word) (hab : b ≠ a) :
    (m.putCell a v).cellAt b = m.cellAt b := by
  induction m with
  | nil => by_cases hv : v = 0x0000#16 <;> simp [Memory.putCell, Memory.cellAt, hv, Ne.symm hab]
  | cons c t ih =>
    obtain ⟨k, w⟩ := c
    by_cases hlt : a < k
    · by_cases hv : v = 0x0000#16 <;> simp [Memory.putCell, Memory.cellAt, hlt, hv, Ne.symm hab]
    · by_cases heq : a = k
      · subst heq
        by_cases hv : v = 0x0000#16 <;> simp [Memory.putCell, Memory.cellAt, hv, Ne.symm hab]
      · simp [Memory.putCell, Memory.cellAt, hlt, heq, ih]

theorem Memory.mem_putCell {m : Memory} {a : Nat} {v : Word} {c : Nat × Word} (h : c ∈ m.putCell a v) :
    c ∈ m ∨ (c = (a, v) ∧ v ≠ 0x0000#16) := by
  induction m with
  | nil => by_cases hv : v = 0x0000#16 <;> simp_all [Memory.putCell]
  | cons d t ih =>
    obtain ⟨k, w⟩ := d
    by_cases hlt : a < k
    · by_cases hv : v = 0x0000#16 <;> simp_all [Memory.putCell] ; tauto
    · by_cases heq : a = k
      · by_cases hv : v = 0x0000#16 <;> simp_all [Memory.putCell] ; tauto
      · simp [Memory.putCell, hlt, heq] at h
        rcases h with h | h
        · exact .inl (by simp [h])
        · exact (ih h).imp_left (List.mem_cons_of_mem _)

theorem Memory.putCell_wf {m : Memory} (h : m.wf) {a : Nat} (ha : a < 65536) (v : Word) : (m.putCell a v).wf := by
  refine ⟨?_, fun c hc => ?_⟩
  · induction m with
    | nil => by_cases hv : v = 0x0000#16 <;> simp [Memory.putCell, hv]
    | cons d t ih =>
      obtain ⟨k, w⟩ := d
      have hp := List.pairwise_cons.1 h.1
      by_cases hlt : a < k
      · by_cases hv : v = 0x0000#16
        · simpa [Memory.putCell, hlt, hv] using hp
        · simp only [Memory.putCell, hlt, hv, if_true, if_false, List.pairwise_cons]
          refine ⟨fun d hd => ?_, hp⟩
          rcases List.mem_cons.1 hd with rfl | hd
          · exact hlt
          · exact Nat.lt_trans hlt (hp.1 d hd)
      · by_cases heq : a = k
        · subst heq
          by_cases hv : v = 0x0000#16 <;> simp [Memory.putCell, hv, hp.2]
          exact fun x y hd => hp.1 _ hd
        · simp only [Memory.putCell, hlt, heq, if_false, List.pairwise_cons]
          refine ⟨fun d hd => ?_, ih (Memory.wf_tail h)⟩
          rcases Memory.mem_putCell hd with hd | ⟨rfl, -⟩
          · exact hp.1 d hd
          · show k < a
            omega
  · rcases Memory.mem_putCell hc with hc | ⟨rfl, hv⟩
    · exact h.2 c hc
    · exact ⟨ha, hv⟩

/-- A write keeps the canonical form. -/
theorem Memory.write_wf {m : Memory} (h : m.wf) (a v : Word) : (m.write a v).wf := Memory.putCell_wf h a.isLt v

/-- The loader keeps the canonical form. -/
theorem Memory.writeWords_wf {m : Memory} (h : m.wf) (a : Word) (ws : List Word) : (m.writeWords a ws).wf := by
  induction ws generalizing m a with
  | nil => exact h
  | cons w ws ih => exact ih (Memory.write_wf h a w) _

/-- Canonical memories that read alike are equal lists. -/
theorem Memory.ext_cellAt {m n : Memory} (hm : m.wf) (hn : n.wf) (h : ∀ a, m.cellAt a = n.cellAt a) : m = n := by
  induction m generalizing n with
  | nil =>
    cases n with
    | nil => rfl
    | cons c t =>
      have := h c.1
      simp [Memory.cellAt] at this
      exact absurd this.symm (hn.2 c (by simp)).2
  | cons c t ih =>
    obtain ⟨k, w⟩ := c
    have hk := (hm.2 (k, w) (by simp)).2
    have hlow := (List.pairwise_cons.1 hm.1).1
    cases n with
    | nil => exact absurd (by simpa [Memory.cellAt] using h k) hk
    | cons d u =>
      obtain ⟨l, x⟩ := d
      have hl := (hn.2 (l, x) (by simp)).2
      have hlow' := (List.pairwise_cons.1 hn.1).1
      have hkl : k = l := by
        rcases Nat.lt_trichotomy k l with hlt | heq | hgt
        · have e := h k
          rw [Memory.cellAt_of_lt (m := (l, x) :: u)] at e
          · exact absurd (by simpa [Memory.cellAt] using e) hk
          · intro c hc
            rcases List.mem_cons.1 hc with rfl | hc
            · exact hlt
            · exact Nat.lt_trans hlt (hlow' c hc)
        · exact heq
        · have e := h l
          rw [Memory.cellAt_of_lt (m := (k, w) :: t)] at e
          · exact absurd (by simpa [Memory.cellAt] using e.symm) hl
          · intro c hc
            rcases List.mem_cons.1 hc with rfl | hc
            · exact hgt
            · exact Nat.lt_trans hgt (hlow c hc)
      subst hkl
      have hwx : w = x := by simpa [Memory.cellAt] using h k
      subst hwx
      congr 1
      refine ih (Memory.wf_tail hm) (Memory.wf_tail hn) fun a => ?_
      by_cases hak : k = a
      · subst hak
        rw [Memory.cellAt_of_lt hlow, Memory.cellAt_of_lt hlow']
      · simpa [Memory.cellAt, hak] using h a

end Sys2Proof.Machine
end

