-- ==== Sys2Proof/Laws/State.lean ====
section
/-! SUPPORT. One lemma per field per update of the state, so that no later proof unfolds a record update. -/

namespace Sys2Proof.Machine

/-! ### setReg -/

@[simp] theorem State.setReg_regs (s : State) (r : Reg) (v : Word) : (s.setReg r v).regs = s.regs.set r v := rfl
@[simp] theorem State.setReg_pc (s : State) (r : Reg) (v : Word) : (s.setReg r v).pc = s.pc := rfl
@[simp] theorem State.setReg_cond (s : State) (r : Reg) (v : Word) : (s.setReg r v).cond = s.cond := rfl
@[simp] theorem State.setReg_run (s : State) (r : Reg) (v : Word) : (s.setReg r v).run = s.run := rfl
@[simp] theorem State.setReg_err (s : State) (r : Reg) (v : Word) : (s.setReg r v).err = s.err := rfl
@[simp] theorem State.setReg_mem (s : State) (r : Reg) (v : Word) : (s.setReg r v).mem = s.mem := rfl
@[simp] theorem State.setReg_output (s : State) (r : Reg) (v : Word) : (s.setReg r v).output = s.output := rfl
@[simp] theorem State.setReg_input (s : State) (r : Reg) (v : Word) : (s.setReg r v).input = s.input := rfl
@[simp] theorem State.setReg_outRoom (s : State) (r : Reg) (v : Word) : (s.setReg r v).outRoom = s.outRoom := rfl
@[simp] theorem State.setReg_pending (s : State) (r : Reg) (v : Word) : (s.setReg r v).pending = s.pending := rfl
@[simp] theorem State.setReg_params (s : State) (r : Reg) (v : Word) : (s.setReg r v).params = s.params := rfl

/-! ### setRegCC -/

@[simp] theorem State.setRegCC_regs (s : State) (r : Reg) (v : Word) : (s.setRegCC r v).regs = s.regs.set r v := rfl
@[simp] theorem State.setRegCC_pc (s : State) (r : Reg) (v : Word) : (s.setRegCC r v).pc = s.pc := rfl
@[simp] theorem State.setRegCC_cond (s : State) (r : Reg) (v : Word) : (s.setRegCC r v).cond = setcc v := rfl
@[simp] theorem State.setRegCC_run (s : State) (r : Reg) (v : Word) : (s.setRegCC r v).run = s.run := rfl
@[simp] theorem State.setRegCC_err (s : State) (r : Reg) (v : Word) : (s.setRegCC r v).err = s.err := rfl
@[simp] theorem State.setRegCC_mem (s : State) (r : Reg) (v : Word) : (s.setRegCC r v).mem = s.mem := rfl
@[simp] theorem State.setRegCC_output (s : State) (r : Reg) (v : Word) : (s.setRegCC r v).output = s.output := rfl
@[simp] theorem State.setRegCC_input (s : State) (r : Reg) (v : Word) : (s.setRegCC r v).input = s.input := rfl
@[simp] theorem State.setRegCC_outRoom (s : State) (r : Reg) (v : Word) : (s.setRegCC r v).outRoom = s.outRoom := rfl
@[simp] theorem State.setRegCC_pending (s : State) (r : Reg) (v : Word) : (s.setRegCC r v).pending = s.pending := rfl
@[simp] theorem State.setRegCC_params (s : State) (r : Reg) (v : Word) : (s.setRegCC r v).params = s.params := rfl

/-! ### setPc -/

@[simp] theorem State.setPc_regs (s : State) (v : Word) : (s.setPc v).regs = s.regs := rfl
@[simp] theorem State.setPc_pc (s : State) (v : Word) : (s.setPc v).pc = v := rfl
@[simp] theorem State.setPc_cond (s : State) (v : Word) : (s.setPc v).cond = s.cond := rfl
@[simp] theorem State.setPc_run (s : State) (v : Word) : (s.setPc v).run = s.run := rfl
@[simp] theorem State.setPc_err (s : State) (v : Word) : (s.setPc v).err = s.err := rfl
@[simp] theorem State.setPc_mem (s : State) (v : Word) : (s.setPc v).mem = s.mem := rfl
@[simp] theorem State.setPc_output (s : State) (v : Word) : (s.setPc v).output = s.output := rfl
@[simp] theorem State.setPc_input (s : State) (v : Word) : (s.setPc v).input = s.input := rfl
@[simp] theorem State.setPc_outRoom (s : State) (v : Word) : (s.setPc v).outRoom = s.outRoom := rfl
@[simp] theorem State.setPc_pending (s : State) (v : Word) : (s.setPc v).pending = s.pending := rfl
@[simp] theorem State.setPc_params (s : State) (v : Word) : (s.setPc v).params = s.params := rfl

/-! ### incPc -/

@[simp] theorem State.incPc_regs (s : State) : (s.incPc).regs = s.regs := rfl
@[simp] theorem State.incPc_pc (s : State) : (s.incPc).pc = s.pc + 1#16 := rfl
@[simp] theorem State.incPc_cond (s : State) : (s.incPc).cond = s.cond := rfl
@[simp] theorem State.incPc_run (s : State) : (s.incPc).run = s.run := rfl
@[simp] theorem State.incPc_err (s : State) : (s.incPc).err = s.err := rfl
@[simp] theorem State.incPc_mem (s : State) : (s.incPc).mem = s.mem := rfl
@[simp] theorem State.incPc_output (s : State) : (s.incPc).output = s.output := rfl
@[simp] theorem State.incPc_input (s : State) : (s.incPc).input = s.input := rfl
@[simp] theorem State.incPc_outRoom (s : State) : (s.incPc).outRoom = s.outRoom := rfl
@[simp] theorem State.incPc_pending (s : State) : (s.incPc).pending = s.pending := rfl
@[simp] theorem State.incPc_params (s : State) : (s.incPc).params = s.params := rfl

/-! ### store -/

@[simp] theorem State.store_regs (s : State) (a v : Word) : (s.store a v).regs = s.regs := rfl
@[simp] theorem State.store_pc (s : State) (a v : Word) : (s.store a v).pc = s.pc := rfl
@[simp] theorem State.store_cond (s : State) (a v : Word) : (s.store a v).cond = s.cond := rfl
@[simp] theorem State.store_run (s : State) (a v : Word) : (s.store a v).run = s.run := rfl
@[simp] theorem State.store_err (s : State) (a v : Word) : (s.store a v).err = s.err := rfl
@[simp] theorem State.store_mem (s : State) (a v : Word) : (s.store a v).mem = s.mem.write a v := rfl
@[simp] theorem State.store_output (s : State) (a v : Word) : (s.store a v).output = s.output := rfl
@[simp] theorem State.store_input (s : State) (a v : Word) : (s.store a v).input = s.input := rfl
@[simp] theorem State.store_outRoom (s : State) (a v : Word) : (s.store a v).outRoom = s.outRoom := rfl
@[simp] theorem State.store_pending (s : State) (a v : Word) : (s.store a v).pending = s.pending := rfl
@[simp] theorem State.store_params (s : State) (a v : Word) : (s.store a v).params = s.params := rfl

/-! ### takeInput -/

@[simp] theorem State.takeInput_regs (s : State) : (s.takeInput).regs = s.regs := rfl
@[simp] theorem State.takeInput_pc (s : State) : (s.takeInput).pc = s.pc := rfl
@[simp] theorem State.takeInput_cond (s : State) : (s.takeInput).cond = s.cond := rfl
@[simp] theorem State.takeInput_run (s : State) : (s.takeInput).run = s.run := rfl
@[simp] theorem State.takeInput_err (s : State) : (s.takeInput).err = s.err := rfl
@[simp] theorem State.takeInput_mem (s : State) : (s.takeInput).mem = s.mem := rfl
@[simp] theorem State.takeInput_output (s : State) : (s.takeInput).output = s.output := rfl
@[simp] theorem State.takeInput_input (s : State) : (s.takeInput).input = s.input.tail := rfl
@[simp] theorem State.takeInput_outRoom (s : State) : (s.takeInput).outRoom = s.outRoom := rfl
@[simp] theorem State.takeInput_pending (s : State) : (s.takeInput).pending = s.pending := rfl
@[simp] theorem State.takeInput_params (s : State) : (s.takeInput).params = s.params := rfl

/-! ### halt -/

@[simp] theorem State.halt_regs (s : State) : (s.halt).regs = s.regs := rfl
@[simp] theorem State.halt_pc (s : State) : (s.halt).pc = s.pc := rfl
@[simp] theorem State.halt_cond (s : State) : (s.halt).cond = s.cond := rfl
@[simp] theorem State.halt_run (s : State) : (s.halt).run = .halted := rfl
@[simp] theorem State.halt_err (s : State) : (s.halt).err = s.err := rfl
@[simp] theorem State.halt_mem (s : State) : (s.halt).mem = s.mem := rfl
@[simp] theorem State.halt_output (s : State) : (s.halt).output = s.output := rfl
@[simp] theorem State.halt_input (s : State) : (s.halt).input = s.input := rfl
@[simp] theorem State.halt_outRoom (s : State) : (s.halt).outRoom = s.outRoom := rfl
@[simp] theorem State.halt_pending (s : State) : (s.halt).pending = none := rfl
@[simp] theorem State.halt_params (s : State) : (s.halt).params = s.params := rfl

/-! ### raise -/

@[simp] theorem State.raise_regs (s : State) (e : ErrorRecord) : (s.raise e).regs = s.regs := rfl
@[simp] theorem State.raise_pc (s : State) (e : ErrorRecord) : (s.raise e).pc = s.pc := rfl
@[simp] theorem State.raise_cond (s : State) (e : ErrorRecord) : (s.raise e).cond = s.cond := rfl
@[simp] theorem State.raise_run (s : State) (e : ErrorRecord) : (s.raise e).run = .halted := rfl
@[simp] theorem State.raise_err (s : State) (e : ErrorRecord) : (s.raise e).err = some e := rfl
@[simp] theorem State.raise_mem (s : State) (e : ErrorRecord) : (s.raise e).mem = s.mem := rfl
@[simp] theorem State.raise_output (s : State) (e : ErrorRecord) : (s.raise e).output = s.output := rfl
@[simp] theorem State.raise_input (s : State) (e : ErrorRecord) : (s.raise e).input = s.input := rfl
@[simp] theorem State.raise_outRoom (s : State) (e : ErrorRecord) : (s.raise e).outRoom = s.outRoom := rfl
@[simp] theorem State.raise_pending (s : State) (e : ErrorRecord) : (s.raise e).pending = none := rfl
@[simp] theorem State.raise_params (s : State) (e : ErrorRecord) : (s.raise e).params = s.params := rfl

/-! ### consoleError -/

@[simp] theorem State.consoleError_regs (s : State) (fa : Word) (v : BitVec 8) : (s.consoleError fa v).regs = s.regs := rfl
@[simp] theorem State.consoleError_pc (s : State) (fa : Word) (v : BitVec 8) : (s.consoleError fa v).pc = s.pc := rfl
@[simp] theorem State.consoleError_cond (s : State) (fa : Word) (v : BitVec 8) : (s.consoleError fa v).cond = s.cond := rfl
@[simp] theorem State.consoleError_run (s : State) (fa : Word) (v : BitVec 8) : (s.consoleError fa v).run = .halted := rfl
@[simp] theorem State.consoleError_err (s : State) (fa : Word) (v : BitVec 8) : (s.consoleError fa v).err = some (.consoleIOError fa v) := rfl
@[simp] theorem State.consoleError_mem (s : State) (fa : Word) (v : BitVec 8) : (s.consoleError fa v).mem = s.mem := rfl
@[simp] theorem State.consoleError_output (s : State) (fa : Word) (v : BitVec 8) : (s.consoleError fa v).output = s.output := rfl
@[simp] theorem State.consoleError_input (s : State) (fa : Word) (v : BitVec 8) : (s.consoleError fa v).input = s.input := rfl
@[simp] theorem State.consoleError_outRoom (s : State) (fa : Word) (v : BitVec 8) : (s.consoleError fa v).outRoom = s.outRoom := rfl
@[simp] theorem State.consoleError_pending (s : State) (fa : Word) (v : BitVec 8) : (s.consoleError fa v).pending = none := rfl
@[simp] theorem State.consoleError_params (s : State) (fa : Word) (v : BitVec 8) : (s.consoleError fa v).params = s.params := rfl

/-! ### trapEntry -/

@[simp] theorem State.trapEntry_regs (s : State) : (s.trapEntry).regs = s.regs.set .r7 s.pc := rfl
@[simp] theorem State.trapEntry_pc (s : State) : (s.trapEntry).pc = s.pc := rfl
@[simp] theorem State.trapEntry_cond (s : State) : (s.trapEntry).cond = s.cond := rfl
@[simp] theorem State.trapEntry_run (s : State) : (s.trapEntry).run = s.run := rfl
@[simp] theorem State.trapEntry_err (s : State) : (s.trapEntry).err = s.err := rfl
@[simp] theorem State.trapEntry_mem (s : State) : (s.trapEntry).mem = s.mem := rfl
@[simp] theorem State.trapEntry_output (s : State) : (s.trapEntry).output = s.output := rfl
@[simp] theorem State.trapEntry_input (s : State) : (s.trapEntry).input = s.input := rfl
@[simp] theorem State.trapEntry_outRoom (s : State) : (s.trapEntry).outRoom = s.outRoom := rfl
@[simp] theorem State.trapEntry_pending (s : State) : (s.trapEntry).pending = s.pending := rfl
@[simp] theorem State.trapEntry_params (s : State) : (s.trapEntry).params = s.params := rfl

/-! ### link -/

@[simp] theorem State.link_regs (s : State) : (s.link).regs = s.regs.set .r7 s.pc := rfl
@[simp] theorem State.link_pc (s : State) : (s.link).pc = s.pc := rfl
@[simp] theorem State.link_cond (s : State) : (s.link).cond = s.cond := rfl
@[simp] theorem State.link_run (s : State) : (s.link).run = s.run := rfl
@[simp] theorem State.link_err (s : State) : (s.link).err = s.err := rfl
@[simp] theorem State.link_mem (s : State) : (s.link).mem = s.mem := rfl
@[simp] theorem State.link_output (s : State) : (s.link).output = s.output := rfl
@[simp] theorem State.link_input (s : State) : (s.link).input = s.input := rfl
@[simp] theorem State.link_outRoom (s : State) : (s.link).outRoom = s.outRoom := rfl
@[simp] theorem State.link_pending (s : State) : (s.link).pending = s.pending := rfl
@[simp] theorem State.link_params (s : State) : (s.link).params = s.params := rfl

/-! ### trapReturn -/

@[simp] theorem State.trapReturn_regs (s : State) : (s.trapReturn).regs = s.regs := rfl
@[simp] theorem State.trapReturn_pc (s : State) : (s.trapReturn).pc = s.pc := rfl
@[simp] theorem State.trapReturn_cond (s : State) : (s.trapReturn).cond = s.cond := rfl
@[simp] theorem State.trapReturn_run (s : State) : (s.trapReturn).run = s.run := rfl
@[simp] theorem State.trapReturn_err (s : State) : (s.trapReturn).err = s.err := rfl
@[simp] theorem State.trapReturn_mem (s : State) : (s.trapReturn).mem = s.mem := rfl
@[simp] theorem State.trapReturn_output (s : State) : (s.trapReturn).output = s.output := rfl
@[simp] theorem State.trapReturn_input (s : State) : (s.trapReturn).input = s.input := rfl
@[simp] theorem State.trapReturn_outRoom (s : State) : (s.trapReturn).outRoom = s.outRoom := rfl
@[simp] theorem State.trapReturn_pending (s : State) : (s.trapReturn).pending = none := rfl
@[simp] theorem State.trapReturn_params (s : State) : (s.trapReturn).params = s.params := rfl

/-! ### suspend -/

@[simp] theorem State.suspend_regs (s : State) (p : Pending) : (s.suspend p).regs = s.regs := rfl
@[simp] theorem State.suspend_pc (s : State) (p : Pending) : (s.suspend p).pc = s.pc := rfl
@[simp] theorem State.suspend_cond (s : State) (p : Pending) : (s.suspend p).cond = s.cond := rfl
@[simp] theorem State.suspend_run (s : State) (p : Pending) : (s.suspend p).run = s.run := rfl
@[simp] theorem State.suspend_err (s : State) (p : Pending) : (s.suspend p).err = s.err := rfl
@[simp] theorem State.suspend_mem (s : State) (p : Pending) : (s.suspend p).mem = s.mem := rfl
@[simp] theorem State.suspend_output (s : State) (p : Pending) : (s.suspend p).output = s.output := rfl
@[simp] theorem State.suspend_input (s : State) (p : Pending) : (s.suspend p).input = s.input := rfl
@[simp] theorem State.suspend_outRoom (s : State) (p : Pending) : (s.suspend p).outRoom = s.outRoom := rfl
@[simp] theorem State.suspend_pending (s : State) (p : Pending) : (s.suspend p).pending = some p := rfl
@[simp] theorem State.suspend_params (s : State) (p : Pending) : (s.suspend p).params = s.params := rfl

/-! ### answer -/

@[simp] theorem State.answer_regs (s : State) (a : ConsoleAnswer) : (s.answer a).regs = s.regs := rfl
@[simp] theorem State.answer_pc (s : State) (a : ConsoleAnswer) : (s.answer a).pc = s.pc := rfl
@[simp] theorem State.answer_cond (s : State) (a : ConsoleAnswer) : (s.answer a).cond = s.cond := rfl
@[simp] theorem State.answer_run (s : State) (a : ConsoleAnswer) : (s.answer a).run = s.run := rfl
@[simp] theorem State.answer_err (s : State) (a : ConsoleAnswer) : (s.answer a).err = s.err := rfl
@[simp] theorem State.answer_mem (s : State) (a : ConsoleAnswer) : (s.answer a).mem = s.mem := rfl
@[simp] theorem State.answer_output (s : State) (a : ConsoleAnswer) : (s.answer a).output = s.output := rfl
@[simp] theorem State.answer_input (s : State) (a : ConsoleAnswer) : (s.answer a).input = s.input ++ [a] := rfl
@[simp] theorem State.answer_outRoom (s : State) (a : ConsoleAnswer) : (s.answer a).outRoom = s.outRoom := rfl
@[simp] theorem State.answer_pending (s : State) (a : ConsoleAnswer) : (s.answer a).pending = s.pending := rfl
@[simp] theorem State.answer_params (s : State) (a : ConsoleAnswer) : (s.answer a).params = s.params := rfl

/-! ### setOutRoom -/

@[simp] theorem State.setOutRoom_regs (s : State) (n : Option Nat) : (s.setOutRoom n).regs = s.regs := rfl
@[simp] theorem State.setOutRoom_pc (s : State) (n : Option Nat) : (s.setOutRoom n).pc = s.pc := rfl
@[simp] theorem State.setOutRoom_cond (s : State) (n : Option Nat) : (s.setOutRoom n).cond = s.cond := rfl
@[simp] theorem State.setOutRoom_run (s : State) (n : Option Nat) : (s.setOutRoom n).run = s.run := rfl
@[simp] theorem State.setOutRoom_err (s : State) (n : Option Nat) : (s.setOutRoom n).err = s.err := rfl
@[simp] theorem State.setOutRoom_mem (s : State) (n : Option Nat) : (s.setOutRoom n).mem = s.mem := rfl
@[simp] theorem State.setOutRoom_output (s : State) (n : Option Nat) : (s.setOutRoom n).output = s.output := rfl
@[simp] theorem State.setOutRoom_input (s : State) (n : Option Nat) : (s.setOutRoom n).input = s.input := rfl
@[simp] theorem State.setOutRoom_outRoom (s : State) (n : Option Nat) : (s.setOutRoom n).outRoom = n := rfl
@[simp] theorem State.setOutRoom_pending (s : State) (n : Option Nat) : (s.setOutRoom n).pending = s.pending := rfl
@[simp] theorem State.setOutRoom_params (s : State) (n : Option Nat) : (s.setOutRoom n).params = s.params := rfl

/-! ### withFetchWord -/

@[simp] theorem State.withFetchWord_regs (s : State) (nbits w : Nat) : (s.withFetchWord nbits w).regs = s.regs := rfl
@[simp] theorem State.withFetchWord_pc (s : State) (nbits w : Nat) : (s.withFetchWord nbits w).pc = s.pc := rfl
@[simp] theorem State.withFetchWord_cond (s : State) (nbits w : Nat) : (s.withFetchWord nbits w).cond = s.cond := rfl
@[simp] theorem State.withFetchWord_run (s : State) (nbits w : Nat) : (s.withFetchWord nbits w).run = .running := rfl
@[simp] theorem State.withFetchWord_err (s : State) (nbits w : Nat) : (s.withFetchWord nbits w).err = s.err := rfl
@[simp] theorem State.withFetchWord_mem (s : State) (nbits w : Nat) : (s.withFetchWord nbits w).mem = s.mem.write s.pc (tableWord nbits w) := rfl
@[simp] theorem State.withFetchWord_output (s : State) (nbits w : Nat) : (s.withFetchWord nbits w).output = s.output := rfl
@[simp] theorem State.withFetchWord_input (s : State) (nbits w : Nat) : (s.withFetchWord nbits w).input = s.input := rfl
@[simp] theorem State.withFetchWord_outRoom (s : State) (nbits w : Nat) : (s.withFetchWord nbits w).outRoom = s.outRoom := rfl
@[simp] theorem State.withFetchWord_pending (s : State) (nbits w : Nat) : (s.withFetchWord nbits w).pending = none := rfl
@[simp] theorem State.withFetchWord_params (s : State) (nbits w : Nat) : (s.withFetchWord nbits w).params = s.params := rfl

/-! ### emit -/

@[simp] theorem State.emit_regs (s : State) (bs : List Byte) : (s.emit bs).regs = s.regs := by
  unfold State.emit; split <;> rfl
@[simp] theorem State.emit_pc (s : State) (bs : List Byte) : (s.emit bs).pc = s.pc := by
  unfold State.emit; split <;> rfl
@[simp] theorem State.emit_cond (s : State) (bs : List Byte) : (s.emit bs).cond = s.cond := by
  unfold State.emit; split <;> rfl
@[simp] theorem State.emit_run (s : State) (bs : List Byte) : (s.emit bs).run = s.run := by
  unfold State.emit; split <;> rfl
@[simp] theorem State.emit_err (s : State) (bs : List Byte) : (s.emit bs).err = s.err := by
  unfold State.emit; split <;> rfl
@[simp] theorem State.emit_mem (s : State) (bs : List Byte) : (s.emit bs).mem = s.mem := by
  unfold State.emit; split <;> rfl
@[simp] theorem State.emit_input (s : State) (bs : List Byte) : (s.emit bs).input = s.input := by
  unfold State.emit; split <;> rfl
@[simp] theorem State.emit_pending (s : State) (bs : List Byte) : (s.emit bs).pending = s.pending := by
  unfold State.emit; split <;> rfl
@[simp] theorem State.emit_params (s : State) (bs : List Byte) : (s.emit bs).params = s.params := by
  unfold State.emit; split <;> rfl

/-- Without an output failure every byte is appended. -/
theorem State.emit_output_of_accepts (s : State) (bs : List Byte) (h : s.outAccepts bs.length = true) :
    (s.emit bs).output = s.output ++ bs := by
  unfold State.emit State.outAccepts at *
  split <;> simp_all [List.take_of_length_le]

/-- With room for `k` bytes only, the first `k` are appended. -/
theorem State.emit_output_of_room (s : State) (bs : List Byte) (k : Nat) (h : s.outRoom = some k) :
    (s.emit bs).output = s.output ++ bs.take k := by
  simp [State.emit, h]

/-- The room left is what the bytes did not use. -/
theorem State.emit_outRoom (s : State) (bs : List Byte) :
    (s.emit bs).outRoom = s.outRoom.map (· - bs.length) := by
  unfold State.emit; split <;> simp_all

/-! ### withCond -/

@[simp] theorem State.withCond_cond (s : State) (c : Cond) : (s.withCond c).cond = c := rfl
@[simp] theorem State.withCond_regs (s : State) (c : Cond) : (s.withCond c).regs = s.regs := rfl
@[simp] theorem State.withCond_pc (s : State) (c : Cond) : (s.withCond c).pc = s.pc := rfl
@[simp] theorem State.withCond_run (s : State) (c : Cond) : (s.withCond c).run = s.run := rfl
@[simp] theorem State.withCond_err (s : State) (c : Cond) : (s.withCond c).err = s.err := rfl
@[simp] theorem State.withCond_mem (s : State) (c : Cond) : (s.withCond c).mem = s.mem := rfl
@[simp] theorem State.withCond_output (s : State) (c : Cond) : (s.withCond c).output = s.output := rfl
@[simp] theorem State.withCond_input (s : State) (c : Cond) : (s.withCond c).input = s.input := rfl
@[simp] theorem State.withCond_outRoom (s : State) (c : Cond) : (s.withCond c).outRoom = s.outRoom := rfl
@[simp] theorem State.withCond_pending (s : State) (c : Cond) : (s.withCond c).pending = s.pending := rfl
@[simp] theorem State.withCond_params (s : State) (c : Cond) : (s.withCond c).params = s.params := rfl

/-! ### Registers -/

@[simp] theorem Regs.get_set_same (rs : Regs) (r : Reg) (v : Word) : (rs.set r v).get r = v := by
  cases r <;> rfl

theorem Regs.get_set_other (rs : Regs) (r q : Reg) (v : Word) (h : q ≠ r) : (rs.set r v).get q = rs.get q := by
  cases r <;> cases q <;> first | rfl | exact absurd rfl h

@[simp] theorem Regs.get_ofFn (f : Reg → Word) (r : Reg) : (Regs.ofFn f).get r = f r := by
  cases r <;> rfl

/-- Register files that hold the same values are the same. -/
theorem Regs.ext_get {a b : Regs} (h : ∀ r, a.get r = b.get r) : a = b := by
  cases a; cases b
  have h0 := h .r0; have h1 := h .r1; have h2 := h .r2; have h3 := h .r3
  have h4 := h .r4; have h5 := h .r5; have h6 := h .r6; have h7 := h .r7
  simp_all [Regs.get]

end Sys2Proof.Machine
end

