-- ==== Sys2Proof/Laws/Ops.lean ====
section
/-! SUPPORT. What each shared operation on registers and memory does, said once (spec/00_scope.md R12). -/

namespace Sys2Proof.Machine

/-! ### Registers -/

theorem State.reg_setReg_same (s : State) (r : Reg) (v : Word) : (s.setReg r v).reg r = v :=
  Regs.get_set_same _ _ _

theorem State.reg_setReg_other (s : State) {r q : Reg} (v : Word) (h : q ≠ r) :
    (s.setReg r v).reg q = s.reg q :=
  Regs.get_set_other _ _ _ _ h

theorem State.reg_setRegCC_same (s : State) (r : Reg) (v : Word) : (s.setRegCC r v).reg r = v :=
  Regs.get_set_same _ _ _

theorem State.reg_setRegCC_other (s : State) {r q : Reg} (v : Word) (h : q ≠ r) :
    (s.setRegCC r v).reg q = s.reg q :=
  Regs.get_set_other _ _ _ _ h

/-- The register reads of a state see the register file alone. -/
theorem State.reg_congr {s t : State} (h : t.regs = s.regs) (r : Reg) : t.reg r = s.reg r := by
  simp [State.reg, h]

/-- The link is in R7, and the other registers are as they were (R204). -/
theorem State.reg_trapEntry (s : State) (r : Reg) :
    s.trapEntry.reg r = if r = .r7 then s.pc else s.reg r := by
  split
  · subst_vars; exact Regs.get_set_same s.regs .r7 s.pc
  · exact Regs.get_set_other s.regs .r7 _ s.pc ‹_›

theorem State.reg_link (s : State) (r : Reg) : s.link.reg r = if r = .r7 then s.pc else s.reg r :=
  State.reg_trapEntry s r

/-! ### Memory (R52, R53) -/

theorem State.load_store_same {s : State} (h : s.mem.wf) (a v : Word) : (s.store a v).load a = v :=
  Memory.cellAt_putCell_same h _ _

theorem State.load_store_other (s : State) {a b : Word} (v : Word) (h : b ≠ a) :
    (s.store a v).load b = s.load b :=
  Memory.cellAt_putCell_other _ _ fun e => h (BitVec.eq_of_toNat_eq e)

theorem State.load_congr {s t : State} (h : t.mem = s.mem) (a : Word) : t.load a = s.load a := by
  simp [State.load, h]

/-! ### The fetch address (R121, R122) -/

@[simp] theorem State.fetchAddr_incPc (s : State) : s.incPc.fetchAddr = s.pc := by
  simp [State.fetchAddr]

theorem State.fetchAddr_eq {s : State} {fa : Word} (h : s.pc = fa + 1#16) : s.fetchAddr = fa := by
  simp [State.fetchAddr, h]

theorem State.pc_eq_fetchAddr_add (s : State) : s.pc = s.fetchAddr + 1#16 := by
  simp [State.fetchAddr]

/-! ### The placed word -/

/-- A placed word is what the next step fetches. -/
theorem State.fetch_withFetchWord {s : State} (h : s.mem.wf) (nbits w : Nat) :
    (s.withFetchWord nbits w).fetch = tableWord nbits w :=
  Memory.cellAt_putCell_same h _ _

end Sys2Proof.Machine
end

