-- ==== Sys2Proof/Laws/PerInstr.lean ====
section
/-! SUPPORT. Facts about every instruction as syntax, one lemma per constructor. -/

/-- The word of an instruction matches the instruction's own row of spec/opcode_table.json. -/
def Sys2Proof.Laws.EncodeMatchesRow.Statement (i : Sys2Proof.Instr) : Prop :=
  Sys2Proof.matchesRow i (Sys2Proof.encode i) = true

namespace Sys2Proof

/-- The mask of the opcode alone keeps the opcode of a 3 + 9 word. -/
theorem encode39_and_opcode (op : Opcode) (f : BitVec 3) (g : BitVec 9) :
    encode39 op f g &&& 0xF000#16 = op.bits ++ 0#12 := by
  show (op.bits ++ f ++ g) &&& (0xF#4 ++ 0#3 ++ 0#9) = op.bits ++ (0#3 ++ 0#9)
  rw [BitVec.and_append, BitVec.and_append]
  cases op <;> simp [Opcode.bits]

/-- The mask of the opcode alone keeps the opcode of a 3 + 3 + 6 word. -/
theorem encode336_and_opcode (op : Opcode) (f g : BitVec 3) (l : BitVec 6) :
    encode336 op f g l &&& 0xF000#16 = op.bits ++ 0#12 := by
  show (op.bits ++ f ++ g ++ l) &&& (0xF#4 ++ 0#3 ++ 0#3 ++ 0#6) = op.bits ++ (0#3 ++ 0#3 ++ 0#6)
  rw [BitVec.and_append, BitVec.and_append, BitVec.and_append]
  cases op <;> simp [Opcode.bits]

/-- The mask of the opcode and ir[5] keeps those of a 3 + 3 + 1 + 5 word. -/
theorem encode336_and_mode (op : Opcode) (f g : BitVec 3) (b : BitVec 1) (l : BitVec 5) :
    encode336 op f g (b ++ l) &&& 0xF020#16 = encode336 op 0#3 0#3 (b ++ 0#5) := by
  show (op.bits ++ f ++ g ++ (b ++ l)) &&& (0xF#4 ++ 0#3 ++ 0#3 ++ (1#1 ++ 0#5)) = _
  rw [BitVec.and_append, BitVec.and_append, BitVec.and_append, BitVec.and_append]
  have hb : b &&& 1#1 = b := BitVec.and_allOnes
  cases op <;> simp [Opcode.bits, encode336, hb]

end Sys2Proof

theorem Sys2Proof.Laws.EncodeMatchesRow.add (dr : Sys2Proof.Reg) (sr1 : Sys2Proof.Reg) (sr2 : Sys2Proof.Reg) :
    Sys2Proof.Laws.EncodeMatchesRow.Statement (.add dr sr1 sr2) := by
  cases dr <;> cases sr1 <;> cases sr2 <;> rfl

theorem Sys2Proof.Laws.EncodeMatchesRow.addImm (dr : Sys2Proof.Reg) (sr1 : Sys2Proof.Reg) (imm5 : BitVec 5) :
    Sys2Proof.Laws.EncodeMatchesRow.Statement (.addImm dr sr1 imm5) := by
  rw [Sys2Proof.Laws.EncodeMatchesRow.Statement, Sys2Proof.matchesRow, Sys2Proof.encode, Sys2Proof.rowMask, Sys2Proof.encode336_and_mode]
  rfl

theorem Sys2Proof.Laws.EncodeMatchesRow.and (dr : Sys2Proof.Reg) (sr1 : Sys2Proof.Reg) (sr2 : Sys2Proof.Reg) :
    Sys2Proof.Laws.EncodeMatchesRow.Statement (.and dr sr1 sr2) := by
  cases dr <;> cases sr1 <;> cases sr2 <;> rfl

theorem Sys2Proof.Laws.EncodeMatchesRow.andImm (dr : Sys2Proof.Reg) (sr1 : Sys2Proof.Reg) (imm5 : BitVec 5) :
    Sys2Proof.Laws.EncodeMatchesRow.Statement (.andImm dr sr1 imm5) := by
  rw [Sys2Proof.Laws.EncodeMatchesRow.Statement, Sys2Proof.matchesRow, Sys2Proof.encode, Sys2Proof.rowMask, Sys2Proof.encode336_and_mode]
  rfl

theorem Sys2Proof.Laws.EncodeMatchesRow.not (dr : Sys2Proof.Reg) (sr : Sys2Proof.Reg) :
    Sys2Proof.Laws.EncodeMatchesRow.Statement (.not dr sr) := by
  rw [Sys2Proof.Laws.EncodeMatchesRow.Statement, Sys2Proof.matchesRow, Sys2Proof.encode, Sys2Proof.rowMask, Sys2Proof.encode336_and_opcode]
  rfl

theorem Sys2Proof.Laws.EncodeMatchesRow.br (nzp : BitVec 3) (off9 : BitVec 9) :
    Sys2Proof.Laws.EncodeMatchesRow.Statement (.br nzp off9) := by
  rw [Sys2Proof.Laws.EncodeMatchesRow.Statement, Sys2Proof.matchesRow, Sys2Proof.encode, Sys2Proof.rowMask, Sys2Proof.encode39_and_opcode]
  rfl

theorem Sys2Proof.Laws.EncodeMatchesRow.jmp (base : Sys2Proof.Reg) :
    Sys2Proof.Laws.EncodeMatchesRow.Statement (.jmp base) := by
  rw [Sys2Proof.Laws.EncodeMatchesRow.Statement, Sys2Proof.matchesRow, Sys2Proof.encode, Sys2Proof.rowMask, Sys2Proof.encode336_and_opcode]
  rfl

theorem Sys2Proof.Laws.EncodeMatchesRow.ret :
    Sys2Proof.Laws.EncodeMatchesRow.Statement (.ret) := rfl

theorem Sys2Proof.Laws.EncodeMatchesRow.jsr (off11 : BitVec 11) :
    Sys2Proof.Laws.EncodeMatchesRow.Statement (.jsr off11) := by
  rw [Sys2Proof.Laws.EncodeMatchesRow.Statement, Sys2Proof.matchesRow, Sys2Proof.encode, Sys2Proof.rowMask]
  show ((0x4#4 ++ 1#1 ++ off11) &&& (0xF#4 ++ 1#1 ++ 0#11) == _) = true
  rw [BitVec.and_append, BitVec.and_append, BitVec.and_zero]
  rfl

theorem Sys2Proof.Laws.EncodeMatchesRow.jsrr (base : Sys2Proof.Reg) :
    Sys2Proof.Laws.EncodeMatchesRow.Statement (.jsrr base) := by
  cases base <;> rfl

theorem Sys2Proof.Laws.EncodeMatchesRow.ld (dr : Sys2Proof.Reg) (off9 : BitVec 9) :
    Sys2Proof.Laws.EncodeMatchesRow.Statement (.ld dr off9) := by
  rw [Sys2Proof.Laws.EncodeMatchesRow.Statement, Sys2Proof.matchesRow, Sys2Proof.encode, Sys2Proof.rowMask, Sys2Proof.encode39_and_opcode]
  rfl

theorem Sys2Proof.Laws.EncodeMatchesRow.ldi (dr : Sys2Proof.Reg) (off9 : BitVec 9) :
    Sys2Proof.Laws.EncodeMatchesRow.Statement (.ldi dr off9) := by
  rw [Sys2Proof.Laws.EncodeMatchesRow.Statement, Sys2Proof.matchesRow, Sys2Proof.encode, Sys2Proof.rowMask, Sys2Proof.encode39_and_opcode]
  rfl

theorem Sys2Proof.Laws.EncodeMatchesRow.ldr (dr : Sys2Proof.Reg) (base : Sys2Proof.Reg) (off6 : BitVec 6) :
    Sys2Proof.Laws.EncodeMatchesRow.Statement (.ldr dr base off6) := by
  rw [Sys2Proof.Laws.EncodeMatchesRow.Statement, Sys2Proof.matchesRow, Sys2Proof.encode, Sys2Proof.rowMask, Sys2Proof.encode336_and_opcode]
  rfl

theorem Sys2Proof.Laws.EncodeMatchesRow.lea (dr : Sys2Proof.Reg) (off9 : BitVec 9) :
    Sys2Proof.Laws.EncodeMatchesRow.Statement (.lea dr off9) := by
  rw [Sys2Proof.Laws.EncodeMatchesRow.Statement, Sys2Proof.matchesRow, Sys2Proof.encode, Sys2Proof.rowMask, Sys2Proof.encode39_and_opcode]
  rfl

theorem Sys2Proof.Laws.EncodeMatchesRow.st (sr : Sys2Proof.Reg) (off9 : BitVec 9) :
    Sys2Proof.Laws.EncodeMatchesRow.Statement (.st sr off9) := by
  rw [Sys2Proof.Laws.EncodeMatchesRow.Statement, Sys2Proof.matchesRow, Sys2Proof.encode, Sys2Proof.rowMask, Sys2Proof.encode39_and_opcode]
  rfl

theorem Sys2Proof.Laws.EncodeMatchesRow.sti (sr : Sys2Proof.Reg) (off9 : BitVec 9) :
    Sys2Proof.Laws.EncodeMatchesRow.Statement (.sti sr off9) := by
  rw [Sys2Proof.Laws.EncodeMatchesRow.Statement, Sys2Proof.matchesRow, Sys2Proof.encode, Sys2Proof.rowMask, Sys2Proof.encode39_and_opcode]
  rfl

theorem Sys2Proof.Laws.EncodeMatchesRow.str (sr : Sys2Proof.Reg) (base : Sys2Proof.Reg) (off6 : BitVec 6) :
    Sys2Proof.Laws.EncodeMatchesRow.Statement (.str sr base off6) := by
  rw [Sys2Proof.Laws.EncodeMatchesRow.Statement, Sys2Proof.matchesRow, Sys2Proof.encode, Sys2Proof.rowMask, Sys2Proof.encode336_and_opcode]
  rfl

theorem Sys2Proof.Laws.EncodeMatchesRow.trap (v : BitVec 8) :
    Sys2Proof.Laws.EncodeMatchesRow.Statement (.trap v) := by
  rw [Sys2Proof.Laws.EncodeMatchesRow.Statement, Sys2Proof.matchesRow, Sys2Proof.encode, Sys2Proof.rowMask]
  show ((0xF#4 ++ 0#4 ++ v) &&& (0xF#4 ++ 0#4 ++ 0#8) == _) = true
  rw [BitVec.and_append, BitVec.and_zero]
  rfl

theorem Sys2Proof.Laws.EncodeMatchesRow.getc :
    Sys2Proof.Laws.EncodeMatchesRow.Statement (.getc) := rfl

theorem Sys2Proof.Laws.EncodeMatchesRow.out :
    Sys2Proof.Laws.EncodeMatchesRow.Statement (.out) := rfl

theorem Sys2Proof.Laws.EncodeMatchesRow.puts :
    Sys2Proof.Laws.EncodeMatchesRow.Statement (.puts) := rfl

theorem Sys2Proof.Laws.EncodeMatchesRow.inp :
    Sys2Proof.Laws.EncodeMatchesRow.Statement (.inp) := rfl

theorem Sys2Proof.Laws.EncodeMatchesRow.putsp :
    Sys2Proof.Laws.EncodeMatchesRow.Statement (.putsp) := rfl

theorem Sys2Proof.Laws.EncodeMatchesRow.halt :
    Sys2Proof.Laws.EncodeMatchesRow.Statement (.halt) := rfl

theorem Sys2Proof.Laws.EncodeMatchesRow.trapInvalidVector (v : BitVec 8) :
    Sys2Proof.Laws.EncodeMatchesRow.Statement (.trapInvalidVector v) := by
  rw [Sys2Proof.Laws.EncodeMatchesRow.Statement, Sys2Proof.matchesRow, Sys2Proof.encode, Sys2Proof.rowMask]
  show ((0xF#4 ++ 0#4 ++ v) &&& (0xF#4 ++ 0#4 ++ 0#8) == _) = true
  rw [BitVec.and_append, BitVec.and_zero]
  rfl

theorem Sys2Proof.Laws.EncodeMatchesRow.rti (low12 : BitVec 12) :
    Sys2Proof.Laws.EncodeMatchesRow.Statement (.rti low12) := by
  rw [Sys2Proof.Laws.EncodeMatchesRow.Statement, Sys2Proof.matchesRow, Sys2Proof.encode, Sys2Proof.rowMask]
  show ((0x8#4 ++ low12) &&& (0xF#4 ++ 0#12) == _) = true
  rw [BitVec.and_append, BitVec.and_zero]
  rfl

theorem Sys2Proof.Laws.EncodeMatchesRow.res (low12 : BitVec 12) :
    Sys2Proof.Laws.EncodeMatchesRow.Statement (.res low12) := by
  rw [Sys2Proof.Laws.EncodeMatchesRow.Statement, Sys2Proof.matchesRow, Sys2Proof.encode, Sys2Proof.rowMask]
  show ((0xD#4 ++ low12) &&& (0xF#4 ++ 0#12) == _) = true
  rw [BitVec.and_append, BitVec.and_zero]
  rfl
end

