-- ==== Sys2Proof/Laws/Trap.lean ====
section
/-! SUPPORT. The laws of the console port, the string scan and the service routines: for each shared operation,
once, everything it can do (spec/44_trap.md). -/

namespace Sys2Proof.Machine

/-! ### The console port (R201) -/

theorem State.outAccepts_none {s : State} (h : s.outRoom = none) (n : Nat) : s.outAccepts n = true := by
  simp [State.outAccepts, h]

theorem State.outAccepts_some {s : State} {k : Nat} (h : s.outRoom = some k) (n : Nat) :
    s.outAccepts n = decide (n ≤ k) := by
  simp [State.outAccepts, h]

/-- Nothing is refused nothing, and `emit` of nothing is nothing. -/
@[simp] theorem State.emit_nil (s : State) : s.emit [] = s := by
  cases s with
  | mk regs pc cond run err mem output input outRoom pending params =>
    cases outRoom <;> simp [State.emit]

/-- An output that is not accepted says how much room was left. -/
theorem State.room_of_not_accepts {s : State} {n : Nat} (h : s.outAccepts n = false) :
    ∃ k, s.outRoom = some k ∧ k < n := by
  unfold State.outAccepts at h
  split at h
  · simp at h
  · rename_i k hk
    exact ⟨k, hk, by simpa using h⟩

/-- `ConsoleOut` of two runs of bytes is one after the other, when the first is accepted (R201). -/
theorem State.emit_append (s : State) (bs cs : List Byte) (h : s.outAccepts bs.length = true) :
    s.emit (bs ++ cs) = (s.emit bs).emit cs := by
  unfold State.outAccepts at h
  unfold State.emit
  cases hr : s.outRoom with
  | none => simp [List.append_assoc]
  | some k =>
    have hk : bs.length ≤ k := by simpa [hr] using h
    simp [List.take_append, List.take_of_length_le hk, List.append_assoc, Nat.sub_sub]

/-! ### Histories -/

@[simp] theorem outBytes_append (xs ys : List Event) : outBytes (xs ++ ys) = outBytes xs ++ outBytes ys := by
  induction xs with
  | nil => rfl
  | cons e xs ih => cases e <;> simp [outBytes, ih]

theorem outBytes_flatMap {α : Type} (f : α → List Event) (xs : List α) :
    outBytes (xs.flatMap f) = xs.flatMap fun x => outBytes (f x) := by
  induction xs with
  | nil => rfl
  | cons x xs ih => simp [ih]

@[simp] theorem outBytes_map_out (bs : List Byte) : outBytes (bs.map .out) = bs := by
  induction bs with
  | nil => rfl
  | cons b bs ih => simp [outBytes, ih]

/-! ### The string scan (R207, R209) -/

/-- The scanned cells are the ones from `a` on, in order. -/
theorem scanCells_eq_range (m : Memory) (fuel : Nat) (a : Word) :
    scanCells m fuel a = (List.range (scanCells m fuel a).length).map fun k => a + BitVec.ofNat 16 k := by
  induction fuel generalizing a with
  | zero => rfl
  | succ n ih =>
    unfold scanCells
    split
    · rfl
    · rw [List.length_cons, List.range_succ_eq_map, List.map_cons, List.map_map]
      congr 1
      · simp
      · conv => lhs; rw [ih (a + 1#16)]
        refine List.map_congr_left fun k _ => ?_
        show a + 1#16 + BitVec.ofNat 16 k = a + BitVec.ofNat 16 (k + 1)
        rw [BitVec.add_assoc, ← BitVec.ofNat_add, Nat.add_comm]

/-- Every scanned cell is nonzero. -/
theorem scanCells_nonzero (m : Memory) (fuel : Nat) (a : Word) {k : Nat}
    (hk : k < (scanCells m fuel a).length) : m.read (a + BitVec.ofNat 16 k) ≠ 0x0000#16 := by
  induction fuel generalizing a k with
  | zero => simp [scanCells] at hk
  | succ n ih =>
    unfold scanCells at hk
    split at hk
    · simp at hk
    · cases k with
      | zero => simpa
      | succ k =>
        have := ih (a + 1#16) (k := k) (by simpa using hk)
        rwa [BitVec.add_assoc, ← BitVec.ofNat_add, Nat.add_comm] at this

/-- The scan is no longer than its fuel. -/
theorem scanCells_length_le (m : Memory) (fuel : Nat) (a : Word) : (scanCells m fuel a).length ≤ fuel := by
  induction fuel generalizing a with
  | zero => simp [scanCells]
  | succ n ih =>
    unfold scanCells
    split
    · simp
    · simpa using ih (a + 1#16)

/-- A scan that stops before its fuel stops at a zero cell. -/
theorem scanCells_zero (m : Memory) (fuel : Nat) (a : Word) (h : (scanCells m fuel a).length < fuel) :
    m.read (a + BitVec.ofNat 16 (scanCells m fuel a).length) = 0x0000#16 := by
  induction fuel generalizing a with
  | zero => simp at h
  | succ n ih =>
    unfold scanCells at h ⊢
    split
    · simpa
    · rename_i hz
      rw [if_neg hz] at h
      have := ih (a + 1#16) (by simpa using h)
      rw [List.length_cons, Nat.add_comm, BitVec.ofNat_add, ← BitVec.add_assoc]
      exact this

/-- Nonzero cells are scanned, as far as the fuel goes. -/
theorem scanCells_length_ge (m : Memory) (fuel : Nat) (a : Word) {n : Nat} (hn : n ≤ fuel)
    (h : ∀ k, k < n → m.read (a + BitVec.ofNat 16 k) ≠ 0x0000#16) : n ≤ (scanCells m fuel a).length := by
  by_contra hlt
  have hlt : (scanCells m fuel a).length < n := Nat.lt_of_not_le hlt
  exact h _ hlt (scanCells_zero m fuel a (Nat.lt_of_lt_of_le hlt hn))

/-- The scan up to the first zero cell, when that cell is within the lap. -/
theorem scanCells_length_eq (m : Memory) (fuel : Nat) (a : Word) {n : Nat} (hn : n < fuel)
    (h : ∀ k, k < n → m.read (a + BitVec.ofNat 16 k) ≠ 0x0000#16)
    (hz : m.read (a + BitVec.ofNat 16 n) = 0x0000#16) : (scanCells m fuel a).length = n := by
  refine Nat.le_antisymm ?_ (scanCells_length_ge m fuel a (Nat.le_of_lt hn) h)
  by_contra hgt
  exact scanCells_nonzero m fuel a (Nat.lt_of_not_le hgt) hz

/-- A lap that does not end has seen every cell of memory, and none is zero. -/
theorem nonzero_of_not_scanEnds {m : Memory} {a : Word} (h : scanEnds m a = false) (b : Word) :
    m.read b ≠ 0x0000#16 := by
  have hlen : lapCells ≤ (scanCells m lapCells a).length := by simpa [scanEnds] using h
  have hk : (b - a).toNat < (scanCells m lapCells a).length := Nat.lt_of_lt_of_le (b - a).isLt hlen
  have := scanCells_nonzero m lapCells a hk
  rwa [BitVec.ofNat_toNat, BitVec.setWidth_eq, BitVec.add_comm, BitVec.sub_add_cancel] at this

/-- A lap over a memory with no zero cell is all of the address space, and does not end. -/
theorem scanCells_of_nonzero {m : Memory} (h : ∀ b, m.read b ≠ 0x0000#16) (a : Word) :
    (scanCells m lapCells a).length = lapCells :=
  Nat.le_antisymm (scanCells_length_le m lapCells a)
    (scanCells_length_ge m lapCells a (Nat.le_refl _) fun _ _ => h _)

theorem scanEnds_of_nonzero {m : Memory} (h : ∀ b, m.read b ≠ 0x0000#16) (a : Word) :
    scanEnds m a = false := by
  simp [scanEnds, scanCells_of_nonzero h a]

/-- A lap ends when there is a zero cell. -/
theorem scanEnds_of_zero {m : Memory} (a : Word) {b : Word} (h : m.read b = 0x0000#16) :
    scanEnds m a = true := by
  cases he : scanEnds m a with
  | true => rfl
  | false => exact absurd h (nonzero_of_not_scanEnds he b)

/-- The bytes of a lap are the bytes of its cells. -/
theorem outBytes_lapEvents (cell : Word → List Event) (m : Memory) (a : Word) :
    outBytes (lapEvents cell m a) = (scanCells m lapCells a).flatMap fun c => outBytes (cell c) := by
  unfold lapEvents
  rw [outBytes_append, outBytes_flatMap]
  split <;> simp [outBytes]

/-! ### The routines: everything each can do -/

theorem getcRoutine_cases (fa : Word) (s : State) :
    (s.input = [] ∧ getcRoutine fa s = s.suspend ⟨.getc, fa⟩) ∨
    (∃ b rest, s.input = .byte b :: rest ∧
      getcRoutine fa s = s.takeInput.trapReturn.setRegCC .r0 (zext b)) ∨
    (∃ rest, s.input = .failure :: rest ∧ getcRoutine fa s = s.takeInput.consoleError fa 0x20#8) := by
  unfold getcRoutine
  split
  · exact .inl ⟨‹_›, rfl⟩
  · exact .inr (.inl ⟨_, _, ‹_›, rfl⟩)
  · exact .inr (.inr ⟨_, ‹_›, rfl⟩)

theorem outRoutine_cases (fa : Word) (s : State) :
    (s.outAccepts 1 = true ∧ outRoutine fa s = (s.emit [lowByte (s.reg .r0)]).trapReturn) ∨
    (s.outAccepts 1 = false ∧
      outRoutine fa s = (s.emit [lowByte (s.reg .r0)]).consoleError fa 0x21#8) := by
  unfold outRoutine
  cases h : s.outAccepts 1 <;> simp

theorem stringRoutine_cases (r : Suspended) (v : BitVec 8) (lap : List Event) (fa : Word) (s : State) :
    (s.outAccepts (outBytes lap).length = true ∧ scanEnds s.mem (s.reg .r0) = true ∧
      stringRoutine r v lap fa s = (s.emit (outBytes lap)).trapReturn) ∨
    (s.outAccepts (outBytes lap).length = true ∧ scanEnds s.mem (s.reg .r0) = false ∧
      stringRoutine r v lap fa s = (s.emit (outBytes lap)).suspend ⟨r, fa⟩) ∨
    (s.outAccepts (outBytes lap).length = false ∧
      stringRoutine r v lap fa s = (s.emit (outBytes lap)).consoleError fa v) := by
  unfold stringRoutine
  cases h : s.outAccepts (outBytes lap).length <;> cases h' : scanEnds s.mem (s.reg .r0) <;> simp

theorem inpWait_cases (fa : Word) (s : State) :
    (s.input = [] ∧ inpWait fa s = s.suspend ⟨.inp, fa⟩) ∨
    (∃ b rest, s.input = .byte b :: rest ∧ s.outAccepts 1 = true ∧
      inpWait fa s = (s.takeInput.emit [b]).trapReturn.setRegCC .r0 (zext b)) ∨
    (∃ b rest, s.input = .byte b :: rest ∧ s.outAccepts 1 = false ∧
      inpWait fa s = (s.takeInput.emit [b]).consoleError fa 0x23#8) ∨
    (∃ rest, s.input = .failure :: rest ∧ inpWait fa s = s.takeInput.consoleError fa 0x23#8) := by
  unfold inpWait
  split
  · exact .inl ⟨‹_›, rfl⟩
  · cases h : s.outAccepts 1
    · exact .inr (.inr (.inl ⟨_, _, ‹_›, rfl, by simp⟩))
    · exact .inr (.inl ⟨_, _, ‹_›, rfl, by simp⟩)
  · exact .inr (.inr (.inr ⟨_, ‹_›, rfl⟩))

theorem inpRoutine_cases (fa : Word) (s : State) :
    (s.outAccepts s.params.inPrompt.length = true ∧
      inpRoutine fa s = inpWait fa (s.emit s.params.inPrompt)) ∨
    (s.outAccepts s.params.inPrompt.length = false ∧
      inpRoutine fa s = (s.emit s.params.inPrompt).consoleError fa 0x23#8) := by
  unfold inpRoutine
  cases h : s.outAccepts s.params.inPrompt.length <;> simp

theorem haltRoutine_cases (fa : Word) (s : State) :
    (s.outAccepts s.params.haltNotice.length = true ∧
      haltRoutine fa s = (s.emit s.params.haltNotice).halt) ∨
    (s.outAccepts s.params.haltNotice.length = false ∧
      haltRoutine fa s = (s.emit s.params.haltNotice).consoleError fa 0x25#8) := by
  unfold haltRoutine
  cases h : s.outAccepts s.params.haltNotice.length <;> simp

end Sys2Proof.Machine
end

