-- ==== Sys2Proof/Laws/Step.lean ====
section
/-! SUPPORT. Everything a step can do, said once (spec/40_fetch_execute.md R120, R126, R127). -/

namespace Sys2Proof.Machine

/-- A hold awaits an answer, and no other unfinished step does (R126). -/
theorem Pending.awaits_iff (p : Pending) (s : State) :
    p.awaits s = true ↔ (p.routine = .getc ∨ p.routine = .inp) ∧ s.input = [] := by
  unfold Pending.awaits
  cases p.routine <;> simp [Suspended.isHold]

theorem carryOn_of_awaits {p : Pending} {s : State} (h : p.awaits s = true) :
    carryOn p s = .fault .waiting := by
  simp [carryOn, h]

theorem carryOn_of_not_awaits {p : Pending} {s : State} (h : p.awaits s = false) :
    carryOn p s = .next (resume p s) := by
  simp [carryOn, h]

theorem step_of_halted {s : State} (h : s.run = .halted) : step s = .fault .halted := by
  simp [step, h]

theorem step_of_pending {s : State} {p : Pending} (hr : s.run = .running) (hp : s.pending = some p) :
    step s = carryOn p s := by
  simp [step, hr, hp]

theorem step_of_ready {s : State} (hr : s.run = .running) (hp : s.pending = none) :
    step s = exec (decode s.fetch) s.incPc := by
  simp [step, hr, hp]

/-- Every instruction answers a next state. -/
theorem exec_next (i : Instr) (s : State) : ∃ t, exec i s = .next t := by
  cases i <;> exact ⟨_, rfl⟩

/-- A step that answers a next state is an unfinished step going on, or a fetched instruction. -/
theorem step_cases {s t : State} (h : step s = .next t) :
    s.run = .running ∧
    ((∃ p, s.pending = some p ∧ p.awaits s = false ∧ t = resume p s) ∨
      (s.pending = none ∧ exec (decode s.fetch) s.incPc = .next t)) := by
  cases hr : s.run with
  | halted => rw [step_of_halted hr] at h; cases h
  | running =>
    refine ⟨rfl, ?_⟩
    cases hp : s.pending with
    | none => exact .inr ⟨rfl, by rw [← step_of_ready hr hp]; exact h⟩
    | some p =>
      rw [step_of_pending hr hp] at h
      cases ha : p.awaits s with
      | true => rw [carryOn_of_awaits ha] at h; cases h
      | false =>
        rw [carryOn_of_not_awaits ha] at h
        cases h
        exact .inl ⟨p, rfl, ha, rfl⟩

end Sys2Proof.Machine
end

