-- ==== Sys2Proof/Tests/Slice0.lean ====
section
/-! SUPPORT. The model's own tests. Expected results are those of spec/95_test_vectors.md, or of the example at the end of
an instruction's rule; one step each. Then, for every statement that has hypotheses, a state that meets them. -/

namespace Sys2Proof.Tests

open Sys2Proof Sys2Proof.Machine

/-! ### WellFormed: an ill-formed term for each check -/

theorem test_wf_jmp_r7_refused : WellFormed (.jmp .r7) = false := by decide
theorem test_wf_base_trap_refused : WellFormed (.trap 0x21#8) = false := by decide
theorem test_wf_invalid_vector_low_end : WellFormed (.trapInvalidVector 0x20#8) = false := by decide
theorem test_wf_invalid_vector_high_end : WellFormed (.trapInvalidVector 0x25#8) = false := by decide
theorem test_wf_accepts_the_neighbours :
    WellFormed (.jmp .r6) = true ∧ WellFormed (.trapInvalidVector 0x1F#8) = true ∧
    WellFormed (.trapInvalidVector 0x26#8) = true := by decide

/-! ### Decoding: each constructor's word, bit by bit from the formats R84 to R94 -/

theorem test_decode_add : decode 0b0001_000_001_0_00_010#16 = .add .r0 .r1 .r2 := by decide
theorem test_decode_addImm : decode 0b0001_011_100_1_10001#16 = .addImm .r3 .r4 0b10001#5 := by decide
theorem test_decode_and : decode 0b0101_101_110_0_00_111#16 = .and .r5 .r6 .r7 := by decide
theorem test_decode_andImm : decode 0b0101_111_000_1_01110#16 = .andImm .r7 .r0 0b01110#5 := by decide
theorem test_decode_not : decode 0b1001_010_001_111111#16 = .not .r2 .r1 := by decide
theorem test_decode_br : decode 0b0000_101_100000010#16 = .br 0b101#3 0b100000010#9 := by decide
theorem test_decode_jmp : decode 0b1100_000_010_000000#16 = .jmp .r2 := by decide
theorem test_decode_ret : decode 0b1100_000_111_000000#16 = .ret := by decide
theorem test_decode_jsr : decode 0b0100_1_10000000011#16 = .jsr 0b10000000011#11 := by decide
theorem test_decode_jsrr : decode 0b0100_0_00_011_000000#16 = .jsrr .r3 := by decide
theorem test_decode_ld : decode 0b0010_001_100000001#16 = .ld .r1 0b100000001#9 := by decide
theorem test_decode_ldi : decode 0b1010_010_000000001#16 = .ldi .r2 0b000000001#9 := by decide
theorem test_decode_ldr : decode 0b0110_011_100_111110#16 = .ldr .r3 .r4 0b111110#6 := by decide
theorem test_decode_lea : decode 0b1110_101_111111101#16 = .lea .r5 0b111111101#9 := by decide
theorem test_decode_st : decode 0b0011_001_000000101#16 = .st .r1 0b000000101#9 := by decide
theorem test_decode_sti : decode 0b1011_110_010000000#16 = .sti .r6 0b010000000#9 := by decide
theorem test_decode_str : decode 0b0111_001_010_011111#16 = .str .r1 .r2 0b011111#6 := by decide
theorem test_decode_base_trap : decodeBase 0b1111_0000_00100001#16 = .trap 0b00100001#8 := by decide
theorem test_decode_routines :
    decode 0b1111_0000_00100000#16 = .getc ∧ decode 0b1111_0000_00100001#16 = .out ∧
    decode 0b1111_0000_00100010#16 = .puts ∧ decode 0b1111_0000_00100011#16 = .inp ∧
    decode 0b1111_0000_00100100#16 = .putsp ∧ decode 0b1111_0000_00100101#16 = .halt := by decide
theorem test_decode_invalid_vector :
    decode 0b1111_0000_00100110#16 = .trapInvalidVector 0b00100110#8 := by decide
theorem test_decode_rti : decode 0b1000_101010111100#16 = .rti 0b101010111100#12 := by decide
theorem test_decode_res : decode 0b1101_111111111111#16 = .res 0b111111111111#12 := by decide

/-! ### A small machine -/

/-- Parameters with short texts, the rest at their defaults. -/
def ps : Params := ⟨false, false, [0x48#8, 0x21#8], [0x3E#8]⟩

/-- The other values of the two switches (D3, D10). -/
def psTrue : Params := ⟨true, true, [0x48#8, 0x21#8], [0x3E#8]⟩

/-- A running machine at 0x3000 with these registers and memory. -/
def mk (regs : Reg → Word) (mem : Memory) : State := { State.resetWith regs ps with mem := mem }

/-- No register set. -/
def r0s : Reg → Word := fun _ => 0x0000#16

/-- One register set. -/
def rg (r : Reg) (v : Word) : Reg → Word := fun q => if q = r then v else 0x0000#16

/-- Two registers set. -/
def rg2 (r : Reg) (v : Word) (r' : Reg) (v' : Word) : Reg → Word := fun q => if q = r then v else rg r' v' q

/-- What a reading gives after one step. -/
def after {α : Type} (s : State) (f : State → α) : Option α :=
  match step s with
  | .next t => some (f t)
  | .fault _ => none
  | .refused _ => none

/-! ### Operate instructions (95_test_vectors.md 2.3) -/

theorem test_add_wraps :
    after (mk (rg2 .r1 0xFFFF#16 .r2 0x0001#16) [(0x3000, 0x1042#16)]) (fun t => (t.reg .r0, t.cond, t.pc)) =
      some (0x0000#16, .z, 0x3001#16) := by decide
theorem test_add_dest_is_both_sources :
    after (mk (rg .r1 0x4000#16) [(0x3000, 0x1241#16)]) (fun t => (t.reg .r1, t.cond)) =
      some (0x8000#16, .n) := by decide
theorem test_addImm_min :
    after (mk (rg .r0 0x0010#16) [(0x3000, 0x1030#16)]) (fun t => (t.reg .r0, t.cond)) =
      some (0x0000#16, .z) := by decide
theorem test_addImm_at_top_of_memory :
    after { mk r0s [(0xFFFF, 0x1021#16)] with pc := 0xFFFF#16 } (fun t => (t.reg .r0, t.cond, t.pc)) =
      some (0x0001#16, .p, 0x0000#16) := by decide
theorem test_and :
    after (mk (rg2 .r1 0xF0F0#16 .r2 0x8F00#16) [(0x3000, 0x5042#16)]) (fun t => (t.reg .r0, t.cond)) =
      some (0x8000#16, .n) := by decide
theorem test_andImm_sign_extends :
    after (mk (rg .r1 0x1234#16) [(0x3000, 0x5070#16)]) (fun t => (t.reg .r0, t.cond)) =
      some (0x1230#16, .p) := by decide
theorem test_not_unvalidated_bits :
    after (mk (rg .r1 0x1234#16) [(0x3000, 0x9040#16)]) (fun t => (t.reg .r0, t.cond)) =
      some (0xEDCB#16, .n) := by decide

/-! ### Control transfer (95_test_vectors.md 1.5, 2.4) -/

theorem test_br_taken_wraps :
    after { mk r0s [(0x0010, 0x0F00#16)] with pc := 0x0010#16, cond := .p } State.pc = some 0xFF11#16 := by decide
theorem test_br_both_directions :
    after { mk r0s [(0x3000, 0x0805#16)] with cond := .n } State.pc = some 0x3006#16 ∧
    after { mk r0s [(0x3000, 0x0605#16)] with cond := .n } State.pc = some 0x3001#16 := by decide
theorem test_jmp : after (mk (rg .r2 0x4000#16) [(0x3000, 0xC080#16)]) State.pc = some 0x4000#16 := by decide
theorem test_ret_ignores_bits :
    after (mk (rg .r7 0x3456#16) [(0x3000, 0xCFFF#16)]) State.pc = some 0x3456#16 := by decide
theorem test_jsr_wraps :
    after { mk r0s [(0xFFFF, 0x4BFF#16)] with pc := 0xFFFF#16 } (fun t => (t.reg .r7, t.pc, t.cond)) =
      some (0x0000#16, 0x03FF#16, .z) := by decide
theorem test_jsrr_r7_default :
    after (mk (rg .r7 0x5000#16) [(0x3000, 0x41C0#16)]) (fun t => (t.reg .r7, t.pc)) =
      some (0x3001#16, 0x3001#16) := by decide
theorem test_jsrr_r7_read_first :
    after { mk (rg .r7 0x5000#16) [(0x3000, 0x41C0#16)] with params := psTrue } (fun t => (t.reg .r7, t.pc)) =
      some (0x3001#16, 0x5000#16) := by decide

/-! ### Loads, LEA, stores (95_test_vectors.md 2.5) -/

theorem test_ld_wraps :
    after { mk r0s [(0x00EF, 0x0042#16), (0xFFEF, 0x20FF#16)] with pc := 0xFFEF#16 }
      (fun t => (t.reg .r0, t.cond)) = some (0x0042#16, .p) := by decide
theorem test_ldi_two_reads :
    after (mk r0s [(0x3000, 0xA401#16), (0x3002, 0x4000#16), (0x4000, 0x8001#16)])
      (fun t => (t.reg .r2, t.cond)) = some (0x8001#16, .n) := by decide
theorem test_ldr_dest_is_base :
    after (mk r0s [(0x3000, 0x6E3F#16), (0xFFFF, 0x7777#16)]) (fun t => (t.reg .r7, t.cond)) =
      some (0x7777#16, .p) := by decide
theorem test_lea_sets_flags :
    after { mk r0s [(0x7F00, 0xE0FF#16)] with pc := 0x7F00#16 } (fun t => (t.reg .r0, t.cond)) =
      some (0x8000#16, .n) := by decide
theorem test_st_over_itself :
    after (mk (rg .r0 0x1234#16) [(0x3000, 0x31FF#16)]) (fun t => (t.mem, t.cond)) =
      some ([(0x3000, 0x1234#16)], .z) := by decide
theorem test_sti_through_itself :
    after (mk (rg .r0 0xBEEF#16) [(0x3000, 0xB000#16), (0x3001, 0x3001#16)]) (fun t => t.load 0x3001#16) =
      some 0xBEEF#16 := by decide
theorem test_str_wraps :
    after (mk (rg2 .r2 0xFFF0#16 .r1 0xABCD#16) [(0x3000, 0x729F#16)]) (fun t => t.load 0x000F#16) =
      some 0xABCD#16 := by decide
theorem test_store_of_zero_unlists_the_cell :
    after (mk (rg .r1 0x3005#16) [(0x3000, 0x7040#16), (0x3005, 0x1234#16)]) State.mem =
      some [(0x3000, 0x7040#16)] := by decide

/-! ### TRAP and its routines (95_test_vectors.md 2.6) -/

theorem test_getc_zero_extends :
    after { mk r0s [(0x3000, 0xF020#16)] with input := [.byte 0xFF#8] }
      (fun t => (t.reg .r0, t.cond, t.reg .r7, t.pc)) = some (0x00FF#16, .p, 0x3001#16, 0x3001#16) := by decide
theorem test_getc_at_end :
    after { mk r0s [(0x3000, 0xF020#16)] with input := [.failure] } (fun t => (t.run, t.err, t.reg .r7)) =
      some (.halted, some (.consoleIOError 0x3000#16 0x20#8), 0x3001#16) := by decide
/-- The hold row of 95_test_vectors.md 2.6: R7 is written and nothing else. -/
theorem test_getc_hold :
    after (mk r0s [(0x3000, 0xF020#16)]) (fun t => (t.run, t.reg .r7, t.reg .r0, t.cond)) =
      some (.running, 0x3001#16, 0x0000#16, .z) := by decide

/-- A hold has no successor until the host acts (R126). -/
theorem test_hold_has_no_successor :
    after { mk r0s [] with pending := some ⟨.getc, 0x2FFF#16⟩ } State.pc = none ∧
    after { mk r0s [] with pending := some ⟨.getc, 0x2FFF#16⟩, input := [.byte 0x61#8] }
      (fun t => (t.reg .r0, t.cond, t.pc)) = some (0x0061#16, .p, 0x3000#16) := by decide
theorem test_out_low_byte :
    after (mk (rg .r0 0x1241#16) [(0x3000, 0xF021#16)]) (fun t => (t.output, t.reg .r0)) =
      some ([0x41#8], 0x1241#16) := by decide
theorem test_puts_wraps :
    after (mk (rg .r0 0xFFFF#16) [(0x0000, 0x0042#16), (0x3000, 0xF022#16), (0xFFFF, 0x0041#16)])
      (fun t => (t.output, t.pending)) = some ([0x41#8, 0x42#8], none) := by decide
theorem test_puts_zero_low_byte_is_no_end :
    after (mk (rg .r0 0x4000#16) [(0x3000, 0xF022#16), (0x4000, 0x4100#16), (0x4001, 0x0042#16)])
      State.output = some [0x00#8, 0x42#8] := by decide
theorem test_in_prompts_and_echoes :
    after { mk r0s [(0x3000, 0xF023#16)] with input := [.byte 0x71#8] }
      (fun t => (t.output, t.reg .r0, t.cond)) = some ([0x3E#8, 0x71#8], 0x0071#16, .p) := by decide
theorem test_in_at_end_keeps_the_prompt :
    after { mk r0s [(0x3000, 0xF023#16)] with input := [.failure] } (fun t => (t.output, t.err, t.cond)) =
      some ([0x3E#8], some (.consoleIOError 0x3000#16 0x23#8), .z) := by decide

/-- "A", "BC", "D" packed, with zero high bytes in the first and the last cell. -/
def packed : Memory :=
  [(0x3000, 0xF024#16), (0x4000, 0x0041#16), (0x4001, 0x4342#16), (0x4002, 0x0044#16)]

theorem test_putsp_default :
    after (mk (rg .r0 0x4000#16) packed) State.output = some [0x41#8, 0x42#8, 0x43#8, 0x44#8] := by decide
theorem test_putsp_zero_high_emitted :
    after { mk (rg .r0 0x4000#16) packed with params := psTrue } State.output =
      some [0x41#8, 0x00#8, 0x42#8, 0x43#8, 0x44#8] := by decide
theorem test_halt :
    after (mk r0s [(0x3000, 0xF125#16)]) (fun t => (t.output, t.run, t.err, t.reg .r7, t.pc)) =
      some ([0x48#8, 0x21#8], .halted, none, 0x3001#16, 0x3001#16) := by decide
theorem test_halt_notice_failure :
    after { mk r0s [(0x3000, 0xF025#16)] with outRoom := some 1 } (fun t => (t.output, t.err)) =
      some ([0x48#8], some (.consoleIOError 0x3000#16 0x25#8)) := by decide
theorem test_invalid_vector :
    after (mk r0s [(0x3000, 0xF026#16)]) (fun t => (t.err, t.reg .r7, t.run, t.output)) =
      some (some (.invalidTrap 0x3000#16 0x26#8), 0x3001#16, .halted, []) := by decide
theorem test_base_trap_runs_its_routine :
    exec (.trap 0x21#8) (mk (rg .r0 0x0041#16) []) = exec .out (mk (rg .r0 0x0041#16) []) := rfl

/-! ### Reserved opcodes (95_test_vectors.md 2.7) -/

theorem test_rti :
    after { mk (rg .r1 0x0005#16) [(0x3000, 0x8ABC#16)] with cond := .p }
      (fun t => (t.err, t.reg .r1, t.cond, t.pc)) =
      some (some (.invalidOpcode 0x3000#16 0x8#4 0x8ABC#16), 0x0005#16, .p, 0x3001#16) := by decide
theorem test_res :
    after { mk r0s [(0x4000, 0xDFFF#16)] with pc := 0x4000#16 } (fun t => (t.err, t.run, t.pc)) =
      some (some (.invalidOpcode 0x4000#16 0xD#4 0xDFFF#16), .halted, 0x4001#16) := by decide

/-! ### Witnesses: for each statement with hypotheses, and for each of its clauses, what meets them -/

/-- DecodeOfEncodeIsTheInstruction, EveryWordMatchesExactlyOneBaseRow, InvalidVectorResult: the boundary terms. -/
theorem witness_well_formed :
    WellFormed (.jmp .r0) = true ∧ WellFormed (.trapInvalidVector 0x00#8) = true ∧
    WellFormed (.trapInvalidVector 0xFF#8) = true := by decide
theorem witness_base_row_clauses :
    decodeBase 0xC1C0#16 = .jmp .r7 ∧ decodeBase 0xC180#16 = .jmp .r6 ∧
    decodeBase 0xF01F#16 = .trap 0x1F#8 ∧ decodeBase 0xF020#16 = .trap 0x20#8 ∧
    decodeBase 0xF025#16 = .trap 0x25#8 ∧ decodeBase 0xF026#16 = .trap 0x26#8 := by decide
theorem witness_unnamed_bits :
    (irOp 0x1018#16 = 0x1#4 ∧ irImode 0x1018#16 = false) ∧ (irOp 0x5010#16 = 0x5#4 ∧ irImode 0x5010#16 = false) ∧
    irOp 0x903F#16 = 0x9#4 ∧ irOp 0xCE3F#16 = 0xC#4 ∧ (irOp 0x463F#16 = 0x4#4 ∧ irJmode 0x463F#16 = false) ∧
    irOp 0xFF20#16 = 0xF#4 ∧ irOp 0x8FFF#16 = 0x8#4 ∧ irOp 0xDFFF#16 = 0xD#4 := by decide
theorem witness_sign_extension_widths :
    sext 1#1 = 0xFFFF#16 ∧ sext 0b10000#5 = 0xFFF0#16 ∧ sext 0b01111#5 = 0x000F#16 ∧
    sext 0x8000#16 = 0x8000#16 := by decide
theorem witness_vectors_outside :
    (0x00#8 < 0x20#8 ∧ 0x1F#8 < 0x20#8) ∧ (0x25#8 < 0x26#8 ∧ 0x25#8 < 0xFF#8) := by decide

/-- Every `… s.pc = fa + 1#16` hypothesis, at both ends of the address space. -/
theorem witness_fetch_address :
    (mk r0s []).incPc.pc = 0x3000#16 + 1#16 ∧
    { mk r0s [] with pc := 0x0000#16 }.pc = 0xFFFF#16 + 1#16 := by decide

/-- StoreResult, StoreIndirectResult, StoreBaseOffsetResult: canonical memories, the ends of the space listed. -/
theorem witness_canonical_memory :
    (mk r0s []).mem.wf ∧ (mk r0s [(0x0000, 0x0001#16), (0xFFFF, 0x8000#16)]).mem.wf := by decide

/-- FlagsAreWrittenOnlyBySetcc: each kind of instruction answers, and an image loads. -/
theorem witness_flag_clauses :
    (∃ t, exec (.add .r0 .r1 .r2) (mk r0s []) = .next t ∧ flagReg (.add .r0 .r1 .r2) = some .r0 ∧
      flagsFromConsole (.add .r0 .r1 .r2) = false) ∧
    (∃ t, exec .getc { mk r0s [] with input := [.byte 0x61#8] } = .next t ∧ t.cond = .p) ∧
    (∃ t, exec .getc (mk r0s []) = .next t ∧ t.cond = .z) ∧
    (∃ t, exec (.jsr 0#11) (mk r0s []) = .next t ∧ flagReg (.jsr 0#11) = none) ∧
    (∃ t, loadImage ⟨0x4000#16, [0x8000#16]⟩ (mk r0s []) = .next t) ∧
    (∀ nzp off9, Instr.getc ≠ .br nzp off9) :=
  ⟨⟨_, rfl, by decide⟩, ⟨_, rfl, by decide⟩, ⟨_, rfl, by decide⟩, ⟨_, rfl, by decide⟩, ⟨_, rfl⟩,
    fun _ _ h => by cases h⟩

/-- TrapLinksAndDispatches: each routine, and the vectors that touch neither R0 nor COND. -/
theorem witness_trap_vectors :
    trapDecode 0x20#8 = .getc ∧ trapDecode 0x21#8 = .out ∧ trapDecode 0x22#8 = .puts ∧ trapDecode 0x23#8 = .inp ∧
    trapDecode 0x24#8 = .putsp ∧ trapDecode 0x25#8 = .halt ∧ trapDecode 0x26#8 = .invalid ∧
    (0x1F#8 ≠ 0x20#8 ∧ 0x1F#8 ≠ 0x23#8) := by decide

/-! The console cases: `c` is a machine inside a TRAP step at 0x3000. -/

/-- A machine in the execute part of a step at 0x3000. -/
def c (input : List ConsoleAnswer) (room : Option Nat) (r0 : Word) (mem : Memory) : State :=
  { mk (rg .r0 r0) mem with pc := 0x3001#16, input := input, outRoom := room }

theorem witness_getc :
    (c [.byte 0x00#8] none 0#16 []).pc = 0x3000#16 + 1#16 ∧
    (c [.byte 0x00#8] none 0#16 []).input = .byte 0x00#8 :: [] ∧
    (c [.failure, .byte 0xFF#8] none 0#16 []).input = .failure :: [.byte 0xFF#8] ∧
    (c [] none 0#16 []).input = [] := by decide
theorem witness_out :
    (c [] none 0#16 []).pc = 0x3000#16 + 1#16 ∧ (c [] none 0#16 []).outRoom ≠ some 0 ∧
    (c [] (some 1) 0#16 []).outRoom ≠ some 0 ∧ (c [] (some 0) 0#16 []).outRoom = some 0 := by decide
theorem witness_puts_empty :
    (c [] (some 0) 0x4000#16 []).cellsNonzero 0x4000#16 0 ∧
    (c [] (some 0) 0x4000#16 []).load (0x4000#16 + BitVec.ofNat 16 0) = 0x0000#16 ∧
    (c [] (some 0) 0x4000#16 []).outAccepts 0 = true := by
  unfold State.cellsNonzero; decide

/-- "AB" across the top of memory. -/
def wrapped : Memory := [(0x0000, 0x0042#16), (0xFFFF, 0x0041#16)]

theorem witness_puts_wraps :
    (c [] (some 2) 0xFFFF#16 wrapped).cellsNonzero 0xFFFF#16 2 ∧
    (c [] (some 2) 0xFFFF#16 wrapped).load (0xFFFF#16 + BitVec.ofNat 16 2) = 0x0000#16 ∧
    (c [] (some 2) 0xFFFF#16 wrapped).outAccepts 2 = true := by
  unfold State.cellsNonzero; decide
theorem witness_puts_failure :
    (c [] (some 1) 0xFFFF#16 wrapped).cellsNonzero 0xFFFF#16 2 ∧
    (c [] (some 1) 0xFFFF#16 wrapped).outRoom = some 1 ∧ 1 < 2 := by
  unfold State.cellsNonzero; decide

/-- PUTSP, both values of the parameter: the packed string of `packed` has four bytes, or five. -/
theorem witness_putsp :
    (c [] (some 4) 0x4000#16 packed).cellsNonzero 0x4000#16 3 ∧
    (c [] (some 4) 0x4000#16 packed).load (0x4000#16 + BitVec.ofNat 16 3) = 0x0000#16 ∧
    (c [] (some 4) 0x4000#16 packed).outAccepts ((c [] (some 4) 0x4000#16 packed).putspText 0x4000#16 3).length
      = true ∧
    4 < ({ c [] (some 4) 0x4000#16 packed with params := psTrue }.putspText 0x4000#16 3).length := by
  unfold State.cellsNonzero; decide
theorem witness_inp :
    (c [.byte 0x7A#8] (some 2) 0#16 []).outAccepts (ps.inPrompt.length + 1) = true ∧
    (c [.failure] (some 1) 0#16 []).outAccepts ps.inPrompt.length = true ∧
    ((c [] none 0#16 []).input = [] ∧ (c [] none 0#16 []).outAccepts ps.inPrompt.length = true) ∧
    (c [.byte 0x7A#8] (some 1) 0#16 []).outRoom = some ps.inPrompt.length ∧
    ((c [] (some 0) 0#16 []).outRoom = some 0 ∧ 0 < ps.inPrompt.length) := by decide
theorem witness_halt :
    (c [] (some 2) 0#16 []).outAccepts ps.haltNotice.length = true ∧
    ((c [] (some 1) 0#16 []).outRoom = some 1 ∧ 1 < ps.haltNotice.length) := by decide
theorem witness_ways_to_halted :
    (c [] none 0#16 []).run = .running ∧
    (∃ t, exec .halt (c [] none 0#16 []) = .next t ∧ t.run = .halted ∧ t.err = none) ∧
    (∃ t, exec (.trap 0x25#8) (c [] none 0#16 []) = .next t ∧ t.run = .halted ∧ t.err = none) ∧
    (resume ⟨.getc, 0x3000#16⟩ (c [.failure] none 0#16 [])).run = .halted :=
  ⟨rfl, ⟨_, rfl, by decide⟩, ⟨_, rfl, by decide⟩, by decide⟩
theorem witness_waiting :
    (∃ h, exec .getc (c [] none 0#16 []) = .next h ∧ h.pending ≠ none) ∧
    (∃ h, exec .inp (c [] none 0#16 []) = .next h ∧ h.pending ≠ none) ∧
    (c [] none 0#16 []).run = .running ∧ (c [] none 0#16 []).pending = none ∧ (c [] none 0#16 []).input = [] :=
  ⟨⟨_, rfl, by decide⟩, ⟨_, rfl, by decide⟩, rfl, rfl, rfl⟩

/-! A memory without a zero cell: the hypotheses about strings without end. -/

/-- `w` in every cell below `n`. -/
def filled (n : Nat) (w : Word) : Memory := (List.range n).map fun k => (k, w)

theorem cellAt_map (l : List Nat) (w : Word) {a : Nat} (h : a ∈ l) :
    Memory.cellAt (l.map fun k => (k, w)) a = w := by
  induction l with
  | nil => simp at h
  | cons x l ih =>
    by_cases hx : x = a
    · simp [Memory.cellAt, hx]
    · simpa [Memory.cellAt, hx] using ih (by simpa [Ne.symm hx] using h)

theorem read_filled (w : Word) (a : Word) : Memory.read (filled 65536 w) a = w :=
  cellAt_map _ w (by simpa using a.isLt)

theorem filled_wf {w : Word} (h : w ≠ 0x0000#16) : (filled 65536 w).wf := by
  unfold filled
  constructor
  · exact List.pairwise_map.2 List.pairwise_lt_range
  · intro x hx
    obtain ⟨k, hk, rfl⟩ := List.mem_map.1 hx
    exact ⟨by simpa using hk, h⟩

/-- What the statements about such a memory assume, in a machine at the start and in the execute part of a step. -/
theorem no_zero_cell_of {m : Memory} (h : ∀ a, m.read a = 0xF022#16) :
    (c [] none 0#16 m).pc = 0x3000#16 + 1#16 ∧ (c [] none 0#16 m).outRoom = none ∧
    (c [] none 0#16 m).run = .running ∧ ∀ a, (c [] none 0#16 m).load a ≠ 0x0000#16 :=
  ⟨rfl, rfl, rfl, fun a => by
    show m.read a ≠ 0x0000#16
    rw [h]; decide⟩

theorem puts_left_unfinished_of {m : Memory} (h : ∀ a, m.read a = 0xF022#16) :
    ∃ t, step (mk r0s m) = .next t ∧ t.pending = some ⟨.puts, 0x3000#16⟩ := by
  have hs : scanEnds m 0x0000#16 = false := by
    cases he : scanEnds m 0x0000#16 with
    | false => rfl
    | true =>
      have hz := scanCells_zero m lapCells 0x0000#16 (by simpa [scanEnds] using he)
      rw [h] at hz
      exact absurd hz (by decide)
  have hstep : step (mk r0s m) = exec (decode (m.read 0x3000#16)) (mk r0s m).incPc := rfl
  rw [hstep, h, show decode 0xF022#16 = .puts by decide]
  refine ⟨putsRoutine 0x3000#16 (mk r0s m).incPc.trapEntry, ?_, ?_⟩
  · simp only [exec, execPuts, State.fetchAddr_incPc]
    rfl
  rcases stringRoutine_cases .puts 0x22#8 (mk r0s m).incPc.trapEntry.putsLap 0x3000#16
    (mk r0s m).incPc.trapEntry with ⟨_, he, _⟩ | ⟨_, _, he⟩ | ⟨hr, _⟩
  · have : scanEnds m 0x0000#16 = true := he
    simp [hs] at this
  · unfold putsRoutine
    rw [he]
    rfl
  · simp [State.outAccepts_none (s := (mk r0s m).incPc.trapEntry) rfl] at hr

/-- Both ends of the room: none, and one byte less than a lap of PUTS; the first clause, and the later laps. -/
theorem later_lap_of {m : Memory} (h : ∀ a, m.read a = 0xF022#16) :
    { c [] none 0#16 m with pending := some ⟨.puts, 0x3000#16⟩ }.run = .running ∧
    (∀ a, { c [] none 0#16 m with pending := some ⟨.puts, 0x3000#16⟩ }.load a ≠ 0x0000#16) ∧
    (c [] none 0#16 m).outAccepts ((c [] none 0#16 m).lapText .puts).length = true ∧
    65535 < ((c [] (some 65535) 0#16 m).lapText .puts).length := by
  refine ⟨rfl, (no_zero_cell_of h).2.2.2, rfl, ?_⟩
  simp only [State.lapText, State.putsText, List.length_map, List.length_range]
  decide

/-- StringWithoutEndNeverFinishes, and the last clause of EachEndHasItsCause. -/
theorem witness_no_zero_cell :
    ∃ m : Memory, m.wf ∧ (∀ a, (c [] none 0#16 m).load a ≠ 0x0000#16) ∧
      (c [] none 0#16 m).outAccepts ((c [] none 0#16 m).lapText .puts).length = true ∧
      65535 < ((c [] (some 65535) 0#16 m).lapText .puts).length ∧
      ∃ t, step (mk r0s m) = .next t ∧ t.pending = some ⟨.puts, 0x3000#16⟩ :=
  ⟨filled 65536 0xF022#16, filled_wf (by decide), (no_zero_cell_of (read_filled _)).2.2.2,
    (later_lap_of (read_filled _)).2.2.1, (later_lap_of (read_filled _)).2.2.2,
    puts_left_unfinished_of (read_filled _)⟩

/-! Memory, the step and the whole machine. -/

/-- OnlyStoresWriteMemory, OnlyTheListedRegistersAreWritten, OnlyControlTransfersWritePc. -/
theorem witness_frames :
    (∃ t, exec .out (mk r0s []) = .next t ∧ storesMem .out = false ∧ writesPc .out = false ∧
      Reg.r0 ∉ writtenRegs .out) ∧
    Memory.wf [(0xFFFF, 0x0001#16)] ∧ (0x0000#16 : Word) ≠ 0xFFFF#16 :=
  ⟨⟨_, rfl, by decide⟩, by decide, by decide⟩
theorem witness_canonical_equal :
    Memory.wf [(0x0005, 0x0001#16)] ∧
    Memory.wf ((Memory.write [(0x0005, 0x0002#16)] 0x0005#16 0x0001#16)) ∧
    Memory.write [(0x0005, 0x0002#16)] 0x0005#16 0x0001#16 = [(0x0005, 0x0001#16)] := by decide
theorem witness_store_to_the_next_word :
    (mk (rg .r1 0x14A7#16) [(0x3000, 0x3200#16)]).mem.wf ∧
    decode (mk (rg .r1 0x14A7#16) [(0x3000, 0x3200#16)]).fetch = .st .r1 0#9 ∧
    ∃ t, step (mk (rg .r1 0x14A7#16) [(0x3000, 0x3200#16)]) = .next t ∧ t.fetch = 0x14A7#16 :=
  ⟨by decide, by decide, _, rfl, by decide⟩

/-- MemoryAndOutputAreTheHistorysReplay, StepReadsOnlyTheCellsOfItsHistory, StepTakesAtMostOneAnswer: STI, with
another memory that differs in a cell that the step does not read. -/
theorem witness_history :
    stepEvents (mk (rg .r0 0xBEEF#16) [(0x3000, 0xB000#16), (0x3001, 0x5000#16)]) =
      [.read 0x3000#16, .read 0x3001#16, .write 0x5000#16 0xBEEF#16] ∧
    (∀ a, a ∈ readAddrs (stepEvents (mk (rg .r0 0xBEEF#16) [(0x3000, 0xB000#16), (0x3001, 0x5000#16)])) →
      Memory.read [(0x3000, 0xB000#16), (0x3001, 0x5000#16), (0x5000, 0x0001#16)] a =
        (mk (rg .r0 0xBEEF#16) [(0x3000, 0xB000#16), (0x3001, 0x5000#16)]).load a) ∧
    ∃ t, step (mk (rg .r0 0xBEEF#16) [(0x3000, 0xB000#16), (0x3001, 0x5000#16)]) = .next t := by
  have h : stepEvents (mk (rg .r0 0xBEEF#16) [(0x3000, 0xB000#16), (0x3001, 0x5000#16)]) =
      [.read 0x3000#16, .read 0x3001#16, .write 0x5000#16 0xBEEF#16] := by decide
  refine ⟨h, ?_, _, rfl⟩
  rw [h]
  intro a ha
  have : a = 0x3000#16 ∨ a = 0x3001#16 := by simpa [readAddrs] using ha
  rcases this with rfl | rfl <;> decide
theorem witness_step_runs :
    ((mk r0s [(0x3000, 0xF021#16)]).run = .running ∧ (mk r0s [(0x3000, 0xF021#16)]).pending = none ∧
      decode ((mk r0s [(0x3000, 0xF021#16)]).load (mk r0s [(0x3000, 0xF021#16)]).pc) = .out) ∧
    ({ mk r0s [] with pending := some ⟨.getc, 0x2FFF#16⟩ }.run = .running ∧
      { mk r0s [] with pending := some ⟨.getc, 0x2FFF#16⟩ }.pending = some ⟨.getc, 0x2FFF#16⟩ ∧
      { mk r0s [] with pending := some ⟨.getc, 0x2FFF#16⟩ }.input = [] ∧
      { mk r0s [] with pending := some ⟨.getc, 0x2FFF#16⟩, input := [.failure] }.input ≠ []) ∧
    { mk r0s [] with run := .halted }.run = .halted := by decide
theorem witness_boot :
    (∃ s, boot r0s ps [⟨0x4000#16, [0x1234#16, 0x0000#16]⟩, ⟨0x4001#16, [0x0007#16]⟩] = .next s ∧
      s.mem = [(0x4000, 0x1234#16), (0x4001, 0x0007#16)]) := ⟨_, rfl, by decide⟩

/-- LoaderPlacesAnImage: an image that ends in the last cell, and one word past it; a file cut inside a word. -/
theorem witness_image_ends :
    (mk r0s []).mem.wf ∧ (0xFFFE#16 : Word).toNat + [0x0001#16, 0x0002#16].length ≤ 65536 ∧
    65536 < (0xFFFF#16 : Word).toNat + [0x0001#16, 0x0002#16].length ∧
    [0x30#8].length % 2 = 1 ∧ (∃ t, loadImages [⟨0x3000#16, []⟩] (mk r0s []) = .next t) :=
  ⟨by decide, by decide, by decide, by decide, ⟨_, rfl⟩⟩

/-- StepKeepsTheInvariant, HostKeepsTheInvariant. -/
theorem witness_invariant :
    (mk r0s [(0x3000, 0xF020#16)]).Inv ∧ (∃ t, step (mk r0s [(0x3000, 0xF020#16)]) = .next t) ∧
    (∃ t, loadImage ⟨0xFFFF#16, [0x8000#16]⟩ (mk r0s [(0x3000, 0xF020#16)]) = .next t) :=
  ⟨by decide, ⟨_, rfl⟩, ⟨_, rfl⟩⟩

/-- EachEndHasItsCause, each clause. -/
theorem witness_each_end :
    (mk r0s [(0x3000, 0xDFFF#16)]).Inv ∧
    after (mk r0s [(0x3000, 0xDFFF#16)]) State.err = some (some (.invalidOpcode 0x3000#16 0xD#4 0xDFFF#16)) ∧
    (mk r0s [(0x3000, 0xF01F#16)]).Inv ∧
    after (mk r0s [(0x3000, 0xF01F#16)]) State.err = some (some (.invalidTrap 0x3000#16 0x1F#8)) ∧
    { mk r0s [(0x3000, 0xF025#16)] with outRoom := some 0 }.Inv ∧
    after { mk r0s [(0x3000, 0xF025#16)] with outRoom := some 0 } State.err =
      some (some (.consoleIOError 0x3000#16 0x25#8)) ∧
    (mk r0s [(0x3000, 0xF025#16)]).Inv ∧
    after (mk r0s [(0x3000, 0xF025#16)]) (fun t => (t.run, t.err)) = some (.halted, none) ∧
    after (mk r0s [(0x3000, 0xF020#16)]) State.pending = some (some ⟨.getc, 0x3000#16⟩) := by decide

/-- EachEndHasItsCause: a ConsoleIOError of an unfinished IN, by its echo and by its input; and outputs that do and
do not fail. -/
theorem witness_errors_of_a_hold :
    { c [.byte 0x7A#8] (some 0) 0#16 [] with
      pending := some ⟨.inp, 0x3000#16⟩, regs := Regs.ofFn (rg .r7 0x3001#16) }.Inv ∧
    after { c [.byte 0x7A#8] (some 0) 0#16 [] with
      pending := some ⟨.inp, 0x3000#16⟩, regs := Regs.ofFn (rg .r7 0x3001#16) } State.err =
      some (some (.consoleIOError 0x3000#16 0x23#8)) ∧
    after { c [.failure] (some 0) 0#16 [] with
      pending := some ⟨.inp, 0x3000#16⟩, regs := Regs.ofFn (rg .r7 0x3001#16) } State.err =
      some (some (.consoleIOError 0x3000#16 0x23#8)) := by decide
theorem witness_output_fails :
    { mk r0s [(0x3000, 0xF025#16)] with outRoom := some 1 }.outputFails ∧
    ¬ { mk r0s [(0x3000, 0xF025#16)] with outRoom := some 2 }.outputFails :=
  ⟨⟨1, rfl, by decide⟩, fun ⟨k, hk, hl⟩ => by
    cases hk
    exact absurd hl (by decide)⟩

end Sys2Proof.Tests
end

section
/-! The operand form `sext` and the host's side of a step (spec/00_scope.md R6, R10, R202). -/

namespace Sys2Proof.Machine

/-! ### Sign extension, bit by bit (R10) -/

/-- Below the field's width `sext` has the field's bits; from there on up, the field's top bit. -/
theorem getLsbD_sext {n : Nat} (v : BitVec n) {i : Nat} (hi : i < 16) :
    (sext v).getLsbD i = if i < n then v.getLsbD i else v.getLsbD (n - 1) := by
  rw [sext, BitVec.getLsbD_signExtend, BitVec.msb_eq_getLsbD_last]
  simp [hi]

/-- R10's mask `0xFFFF << n` holds exactly the bits from `n` up. -/
theorem getLsbD_maskFrom (n : Nat) {i : Nat} (hi : i < 16) :
    (0xFFFF#16 <<< n).getLsbD i = decide (n ≤ i) := by
  have hones : (0xFFFF#16 : Word) = BitVec.allOnes 16 := by decide
  rw [hones, BitVec.getLsbD_shiftLeft, BitVec.getLsbD_allOnes]
  by_cases hn : i < n
  · simp [hn]
  · have hlt : i - n < 16 := by omega
    simp [hi, hn, hlt, Nat.le_of_not_lt hn]

theorem sext_of_topBit_set {n : Nat} (v : BitVec n) (h : v.getLsbD (n - 1) = true) :
    sext v = v.setWidth 16 ||| (0xFFFF#16 <<< n) := by
  refine BitVec.eq_of_getLsbD_eq fun i hi => ?_
  rw [getLsbD_sext v hi, BitVec.getLsbD_or, getLsbD_maskFrom n hi, BitVec.getLsbD_setWidth]
  by_cases hn : i < n
  · simp [hi, hn, Nat.not_le.mpr hn]
  · simp [hn, h, Nat.le_of_not_lt hn]

theorem sext_of_topBit_clear {n : Nat} (v : BitVec n) (h : v.getLsbD (n - 1) = false) :
    sext v = v.setWidth 16 :=
  BitVec.signExtend_eq_setWidth_of_msb_false (by rw [BitVec.msb_eq_getLsbD_last, h])

/-- Settles O8, by the two values of the field's top bit. -/
theorem signExtensionCopiesTheTopBit : Obligations.SignExtensionCopiesTheTopBit := by
  unfold Obligations.SignExtensionCopiesTheTopBit
  intro n v _ _
  split
  · exact sext_of_topBit_set v ‹_›
  · exact sext_of_topBit_clear v (Bool.eq_false_iff.mpr ‹_›)

/-! ### The parameters and the host's answers (R6, R202) -/

/-- From `s` to `t` the open parameters stay, and of the host's answers at most the oldest is taken. -/
def State.TakesAtMostOneAnswer (s t : State) : Prop :=
  t.params = s.params ∧ (t.input = s.input ∨ t.input = s.input.tail)

theorem getcRoutine_takesAtMostOneAnswer (fa : Word) (s : State) :
    s.TakesAtMostOneAnswer (getcRoutine fa s) := by
  obtain ⟨_, h⟩ | ⟨_, _, _, h⟩ | ⟨_, _, h⟩ := getcRoutine_cases fa s <;>
    simp [h, State.TakesAtMostOneAnswer]

theorem outRoutine_takesAtMostOneAnswer (fa : Word) (s : State) :
    s.TakesAtMostOneAnswer (outRoutine fa s) := by
  obtain ⟨_, h⟩ | ⟨_, h⟩ := outRoutine_cases fa s <;> simp [h, State.TakesAtMostOneAnswer]

theorem stringRoutine_takesAtMostOneAnswer (r : Suspended) (v : BitVec 8) (lap : List Event) (fa : Word)
    (s : State) : s.TakesAtMostOneAnswer (stringRoutine r v lap fa s) := by
  obtain ⟨_, _, h⟩ | ⟨_, _, h⟩ | ⟨_, h⟩ := stringRoutine_cases r v lap fa s <;>
    simp [h, State.TakesAtMostOneAnswer]

theorem inpWait_takesAtMostOneAnswer (fa : Word) (s : State) :
    s.TakesAtMostOneAnswer (inpWait fa s) := by
  obtain ⟨_, h⟩ | ⟨_, _, _, _, h⟩ | ⟨_, _, _, _, h⟩ | ⟨_, _, h⟩ := inpWait_cases fa s <;>
    simp [h, State.TakesAtMostOneAnswer]

/-- The prompt takes no answer, so IN takes what its wait takes (R208). -/
theorem inpRoutine_takesAtMostOneAnswer (fa : Word) (s : State) :
    s.TakesAtMostOneAnswer (inpRoutine fa s) := by
  obtain ⟨_, h⟩ | ⟨_, h⟩ := inpRoutine_cases fa s
  · have hwait := inpWait_takesAtMostOneAnswer fa (s.emit s.params.inPrompt)
    simpa [h, State.TakesAtMostOneAnswer] using hwait
  · simp [h, State.TakesAtMostOneAnswer]

theorem haltRoutine_takesAtMostOneAnswer (fa : Word) (s : State) :
    s.TakesAtMostOneAnswer (haltRoutine fa s) := by
  obtain ⟨_, h⟩ | ⟨_, h⟩ := haltRoutine_cases fa s <;> simp [h, State.TakesAtMostOneAnswer]

theorem trapRoutine_takesAtMostOneAnswer (v : BitVec 8) (fa : Word) (s : State) :
    s.TakesAtMostOneAnswer (trapRoutine v fa s) := by
  unfold trapRoutine
  cases trapDecode v with
  | getc => exact getcRoutine_takesAtMostOneAnswer fa s
  | out => exact outRoutine_takesAtMostOneAnswer fa s
  | puts => exact stringRoutine_takesAtMostOneAnswer _ _ _ fa s
  | inp => exact inpRoutine_takesAtMostOneAnswer fa s
  | putsp => exact stringRoutine_takesAtMostOneAnswer _ _ _ fa s
  | halt => exact haltRoutine_takesAtMostOneAnswer fa s
  | invalid => exact ⟨rfl, .inl rfl⟩

theorem resume_takesAtMostOneAnswer (p : Pending) (s : State) :
    s.TakesAtMostOneAnswer (resume p s) := by
  unfold resume
  cases p.routine with
  | getc => exact getcRoutine_takesAtMostOneAnswer p.addr s
  | inp => exact inpWait_takesAtMostOneAnswer p.addr s
  | puts => exact stringRoutine_takesAtMostOneAnswer _ _ _ p.addr s
  | putsp => exact stringRoutine_takesAtMostOneAnswer _ _ _ p.addr s

/-- Of the instructions only those that enter a service routine can take an answer; trap entry leaves the
parameters and the answers, so what the routine keeps of `s.trapEntry` it keeps of `s`. -/
theorem exec_takesAtMostOneAnswer {i : Instr} {s t : State} (h : exec i s = .next t) :
    s.TakesAtMostOneAnswer t := by
  cases i with
  | trap v => cases h; exact trapRoutine_takesAtMostOneAnswer v s.fetchAddr s.trapEntry
  | getc => cases h; exact getcRoutine_takesAtMostOneAnswer s.fetchAddr s.trapEntry
  | out => cases h; exact outRoutine_takesAtMostOneAnswer s.fetchAddr s.trapEntry
  | puts => cases h; exact stringRoutine_takesAtMostOneAnswer _ _ _ s.fetchAddr s.trapEntry
  | inp => cases h; exact inpRoutine_takesAtMostOneAnswer s.fetchAddr s.trapEntry
  | putsp => cases h; exact stringRoutine_takesAtMostOneAnswer _ _ _ s.fetchAddr s.trapEntry
  | halt => cases h; exact haltRoutine_takesAtMostOneAnswer s.fetchAddr s.trapEntry
  | br nzp off9 => cases h; split <;> exact ⟨rfl, .inl rfl⟩
  | _ => cases h; exact ⟨rfl, .inl rfl⟩

/-- Settles O57: an unfinished step goes on by its routine, and a fetched instruction by its meaning; the PC
increment before it leaves the parameters and the answers. -/
theorem stepTakesAtMostOneAnswer : Obligations.StepTakesAtMostOneAnswer := by
  unfold Obligations.StepTakesAtMostOneAnswer
  intro s t h
  obtain ⟨-, ⟨p, -, -, rfl⟩ | ⟨-, hexec⟩⟩ := step_cases h
  · exact resume_takesAtMostOneAnswer p s
  · exact exec_takesAtMostOneAnswer (s := s.incPc) hexec

end Sys2Proof.Machine
end

section
/-! The state across an instruction (spec/10_state.md): what each instruction and each service routine writes
of registers, flags, PC and run state, said once; then the frames, the flags, reset and the invariant. -/

namespace Sys2Proof

/-! ### The rows the decoder answers (R99, R102) -/

theorem refineTrap_wellFormed (v : BitVec 8) : WellFormed (refineTrap v) = true := by
  unfold refineTrap
  cases hd : trapDecode v with
  | invalid => simp [WellFormed, (trapDecode_eq_invalid_iff v).1 hd]
  | _ => rfl

theorem refine_wellFormed {i : Instr} (h : ∀ v, i ≠ .trapInvalidVector v) : WellFormed (refine i) = true := by
  cases i with
  | jmp base => cases base <;> rfl
  | trap v => exact refineTrap_wellFormed v
  | trapInvalidVector v => exact absurd rfl (h v)
  | _ => rfl

/-- The row of the invalid vectors is no base row. -/
theorem decodeBase_ne_trapInvalidVector (ir : Word) (v : BitVec 8) : decodeBase ir ≠ .trapInvalidVector v := by
  unfold decodeBase
  cases Opcode.ofBits (irOp ir) with
  | add | and | jsr => dsimp only; split <;> exact Instr.noConfusion
  | _ => exact Instr.noConfusion

theorem decode_wellFormed (ir : Word) : WellFormed (decode ir) = true :=
  refine_wellFormed (decodeBase_ne_trapInvalidVector ir)

theorem vectorInService_of_decode {ir : Word} {v : BitVec 8} (h : decode ir = .trapInvalidVector v) :
    vectorInService v = false := by
  have hwf := decode_wellFormed ir
  rw [h] at hwf
  simpa [WellFormed] using hwf

/-- The opcode of a word put together from an opcode and twelve bits (R81, R94). -/
theorem irOp_append (b : BitVec 4) (low12 : BitVec 12) : irOp (b ++ low12) = b := by
  rw [irOp, extractLsb'_append_high _ _ _ _ (by omega)]
  exact extractLsb'_whole b

end Sys2Proof

namespace Sys2Proof.Machine

/-! ### What an instruction can do -/

/-- The seven things an instruction can do to the state, each with what the tables of R21, R22 and R25 give the
instructions that do it. -/
inductive Does (i : Instr) (s t : State) : Prop
  | flagged (r : Reg) (v : Word) : writtenRegs i = [r] → flagReg i = some r → flagsFromConsole i = false →
      writesPc i = false → t = s.setRegCC r v → Does i s t
  | jumps (a : Word) : flagReg i = none → writesPc i = true → t = s.setPc a → Does i s t
  | calls (a : Word) : writtenRegs i = [.r7] → flagReg i = none → writesPc i = true →
      t = s.link.setPc a → Does i s t
  | stores (a v : Word) : flagReg i = none → writesPc i = false → t = s.store a v → Does i s t
  | serves (v : BitVec 8) : writtenRegs i = writtenRegs (.trap v) → flagReg i = flagReg (.trap v) →
      flagsFromConsole i = flagsFromConsole (.trap v) → t = trapRoutine v s.fetchAddr s.trapEntry → Does i s t
  | invalidTrap (v : BitVec 8) : i = .trapInvalidVector v →
      t = Machine.invalidTrap v s.fetchAddr s.trapEntry → Does i s t
  | invalidOpcode (op : Opcode) (low12 : BitVec 12) : op = .rti ∨ op = .res → flagReg i = none →
      t = Machine.invalidOpcode op low12 s → Does i s t

theorem execBr_does (nzp : BitVec 3) (off9 : BitVec 9) (s : State) {t : State}
    (h : execBr nzp off9 s = .next t) : Does (.br nzp off9) s t := by
  cases h
  split
  · exact .jumps (s.pcRel off9) rfl rfl rfl
  · exact .jumps s.pc rfl rfl rfl

/-- Every instruction does one of the seven things. -/
theorem exec_does {i : Instr} {s t : State} (h : exec i s = .next t) : Does i s t := by
  cases i with
  | add dr | addImm dr | and dr | andImm dr | not dr | ld dr | ldi dr | ldr dr | lea dr =>
    cases h; exact .flagged dr _ rfl rfl rfl rfl rfl
  | br nzp off9 => exact execBr_does nzp off9 s h
  | jmp | ret => cases h; exact .jumps _ rfl rfl rfl
  | jsr | jsrr => cases h; exact .calls _ rfl rfl rfl rfl
  | st | sti | str => cases h; exact .stores _ _ rfl rfl rfl
  | trap v => cases h; exact .serves v rfl rfl rfl rfl
  | getc => cases h; exact .serves 0x20#8 rfl rfl rfl rfl
  | out => cases h; exact .serves 0x21#8 rfl rfl rfl rfl
  | puts => cases h; exact .serves 0x22#8 rfl rfl rfl rfl
  | inp => cases h; exact .serves 0x23#8 rfl rfl rfl rfl
  | putsp => cases h; exact .serves 0x24#8 rfl rfl rfl rfl
  | halt => cases h; exact .serves 0x25#8 rfl rfl rfl rfl
  | trapInvalidVector v => cases h; exact .invalidTrap v rfl rfl
  | rti low12 => cases h; exact .invalidOpcode .rti low12 (.inl rfl) rfl rfl
  | res low12 => cases h; exact .invalidOpcode .res low12 (.inr rfl) rfl rfl

/-! ### What a service routine can do -/

/-- How the routine of vector `v`, entered by the TRAP at `fa`, leaves run state, latch and unfinished step. -/
inductive RoutineEnd (v : BitVec 8) (fa : Word) (s t : State) : Prop
  | returns : GoesOn s t → RoutineEnd v fa s t
  | holds (r : Suspended) : Holds ⟨r, fa⟩ s t → RoutineEnd v fa s t
  | halts : t.run = .halted → t.err = s.err → t.pending = none → RoutineEnd v fa s t
  | consoleError : vectorInService v = true → Raises (.consoleIOError fa v) t → RoutineEnd v fa s t
  | invalidTrap : vectorInService v = false → Raises (.invalidTrap fa v) t → RoutineEnd v fa s t

/-- The registers and COND are the same. -/
structure KeepsRegsAndFlags (s t : State) : Prop where
  regs : t.regs = s.regs
  cond : t.cond = s.cond

/-- The character `b` went to R0, with its flags (R205, R208). -/
structure ReadsCharacter (b : Byte) (s t : State) : Prop where
  regs : t.regs = s.regs.set .r0 (zext b)
  cond : t.cond = setcc (zext b)

theorem ReadsCharacter.cond_eq_setcc {b : Byte} {s t : State} (h : ReadsCharacter b s t) :
    t.cond = setcc (t.reg .r0) := by
  rw [h.cond, State.reg, h.regs, Regs.get_set_same]

theorem Suspended.reads_of_vector {r : Suspended} (h : r.vector = 0x20#8 ∨ r.vector = 0x23#8) :
    r = .getc ∨ r = .inp := by
  cases r <;> simp_all [Suspended.vector]

/-- What the routine of vector `v`, entered by the TRAP at `fa`, does from `s` to `t`: PC and memory stay, and
only GETC and IN may write R0 and COND. -/
structure Serves (v : BitVec 8) (fa : Word) (s t : State) : Prop where
  pc : t.pc = s.pc
  mem : t.mem = s.mem
  regs : KeepsRegsAndFlags s t ∨ ((v = 0x20#8 ∨ v = 0x23#8) ∧ ∃ b, ReadsCharacter b s t)
  ending : RoutineEnd v fa s t

/-- From `s` to `u` only the console ports change: what a routine does before it ends. -/
structure UsesConsoleOnly (s u : State) : Prop where
  regs : u.regs = s.regs
  cond : u.cond = s.cond
  pc : u.pc = s.pc
  mem : u.mem = s.mem
  run : u.run = s.run
  err : u.err = s.err

theorem usesConsoleOnly_refl (s : State) : UsesConsoleOnly s s := ⟨rfl, rfl, rfl, rfl, rfl, rfl⟩

theorem usesConsoleOnly_takeInput (s : State) : UsesConsoleOnly s s.takeInput := ⟨rfl, rfl, rfl, rfl, rfl, rfl⟩

theorem usesConsoleOnly_emit (s : State) (bs : List Byte) : UsesConsoleOnly s (s.emit bs) where
  regs := s.emit_regs bs
  cond := s.emit_cond bs
  pc := s.emit_pc bs
  mem := s.emit_mem bs
  run := s.emit_run bs
  err := s.emit_err bs

/-- IN takes the answer and echoes it (R208). -/
theorem usesConsoleOnly_echo (s : State) (b : Byte) : UsesConsoleOnly s (s.takeInput.emit [b]) where
  __ := usesConsoleOnly_emit s.takeInput [b]

section
variable {v : BitVec 8} {fa : Word} {s u : State}

theorem UsesConsoleOnly.trapReturn_serves (h : UsesConsoleOnly s u) : Serves v fa s u.trapReturn :=
  ⟨h.pc, h.mem, .inl ⟨h.regs, h.cond⟩, .returns ⟨h.run, h.err, rfl⟩⟩

theorem UsesConsoleOnly.suspend_serves (h : UsesConsoleOnly s u) (r : Suspended) :
    Serves v fa s (u.suspend ⟨r, fa⟩) :=
  ⟨h.pc, h.mem, .inl ⟨h.regs, h.cond⟩, .holds r ⟨h.run, h.err, rfl⟩⟩

theorem UsesConsoleOnly.halt_serves (h : UsesConsoleOnly s u) : Serves v fa s u.halt :=
  ⟨h.pc, h.mem, .inl ⟨h.regs, h.cond⟩, .halts rfl h.err rfl⟩

theorem UsesConsoleOnly.consoleError_serves (h : UsesConsoleOnly s u) (hv : vectorInService v = true) :
    Serves v fa s (u.consoleError fa v) :=
  ⟨h.pc, h.mem, .inl ⟨h.regs, h.cond⟩, .consoleError hv ⟨rfl, rfl, rfl⟩⟩

theorem UsesConsoleOnly.read_serves (h : UsesConsoleOnly s u) (hv : v = 0x20#8 ∨ v = 0x23#8) (b : Byte) :
    Serves v fa s (u.trapReturn.setRegCC .r0 (zext b)) :=
  ⟨h.pc, h.mem, .inr ⟨hv, b, by simp [h.regs], rfl⟩, .returns ⟨h.run, h.err, rfl⟩⟩

/-- A routine that has used the console goes on as one entered there. -/
theorem UsesConsoleOnly.serves_trans {t : State} (h : UsesConsoleOnly s u) (ht : Serves v fa u t) :
    Serves v fa s t := by
  obtain ⟨regs, cond, pc, mem, run, err⟩ := h
  obtain ⟨hpc, hmem, hregs, hend⟩ := ht
  refine ⟨hpc.trans pc, hmem.trans mem, ?_, ?_⟩
  · refine hregs.imp (fun hk => ⟨hk.regs.trans regs, hk.cond.trans cond⟩) ?_
    rintro ⟨hv, b, hr⟩
    exact ⟨hv, b, by rw [hr.regs, regs], hr.cond⟩
  · cases hend with
    | returns hg => exact .returns ⟨hg.run.trans run, hg.err.trans err, hg.pending⟩
    | holds r hh => exact .holds r ⟨hh.run.trans run, hh.err.trans err, hh.pending⟩
    | halts hrun herr hp => exact .halts hrun (herr.trans err) hp
    | consoleError hv hr => exact .consoleError hv hr
    | invalidTrap hv hr => exact .invalidTrap hv hr

end

theorem getcRoutine_serves (fa : Word) (s : State) : Serves 0x20#8 fa s (getcRoutine fa s) := by
  obtain ⟨-, h⟩ | ⟨b, -, -, h⟩ | ⟨-, -, h⟩ := getcRoutine_cases fa s <;> rw [h]
  · exact (usesConsoleOnly_refl s).suspend_serves .getc
  · exact (usesConsoleOnly_takeInput s).read_serves (.inl rfl) b
  · exact (usesConsoleOnly_takeInput s).consoleError_serves rfl

theorem outRoutine_serves (fa : Word) (s : State) : Serves 0x21#8 fa s (outRoutine fa s) := by
  obtain ⟨-, h⟩ | ⟨-, h⟩ := outRoutine_cases fa s <;> rw [h]
  · exact (usesConsoleOnly_emit s _).trapReturn_serves
  · exact (usesConsoleOnly_emit s _).consoleError_serves rfl

theorem stringRoutine_serves {v : BitVec 8} (hv : vectorInService v = true) (r : Suspended) (lap : List Event)
    (fa : Word) (s : State) : Serves v fa s (stringRoutine r v lap fa s) := by
  obtain ⟨-, -, h⟩ | ⟨-, -, h⟩ | ⟨-, h⟩ := stringRoutine_cases r v lap fa s <;> rw [h]
  · exact (usesConsoleOnly_emit s _).trapReturn_serves
  · exact (usesConsoleOnly_emit s _).suspend_serves r
  · exact (usesConsoleOnly_emit s _).consoleError_serves hv

theorem inpWait_serves (fa : Word) (s : State) : Serves 0x23#8 fa s (inpWait fa s) := by
  obtain ⟨-, h⟩ | ⟨b, -, -, -, h⟩ | ⟨b, -, -, -, h⟩ | ⟨-, -, h⟩ := inpWait_cases fa s <;> rw [h]
  · exact (usesConsoleOnly_refl s).suspend_serves .inp
  · exact (usesConsoleOnly_echo s b).read_serves (.inr rfl) b
  · exact (usesConsoleOnly_echo s b).consoleError_serves rfl
  · exact (usesConsoleOnly_takeInput s).consoleError_serves rfl

theorem inpRoutine_serves (fa : Word) (s : State) : Serves 0x23#8 fa s (inpRoutine fa s) := by
  have hprompt := usesConsoleOnly_emit s s.params.inPrompt
  obtain ⟨-, h⟩ | ⟨-, h⟩ := inpRoutine_cases fa s <;> rw [h]
  · exact hprompt.serves_trans (inpWait_serves fa _)
  · exact hprompt.consoleError_serves rfl

theorem haltRoutine_serves (fa : Word) (s : State) : Serves 0x25#8 fa s (haltRoutine fa s) := by
  obtain ⟨-, h⟩ | ⟨-, h⟩ := haltRoutine_cases fa s <;> rw [h]
  · exact (usesConsoleOnly_emit s _).halt_serves
  · exact (usesConsoleOnly_emit s _).consoleError_serves rfl

theorem invalidTrap_serves {v : BitVec 8} (hv : vectorInService v = false) (fa : Word) (s : State) :
    Serves v fa s (invalidTrap v fa s) :=
  ⟨rfl, rfl, .inl ⟨rfl, rfl⟩, .invalidTrap hv ⟨rfl, rfl, rfl⟩⟩

/-- The six service vectors, one by one (R203). -/
theorem eq_of_vectorInService :
    ∀ v : BitVec 8, vectorInService v = true →
      v = 0x20#8 ∨ v = 0x21#8 ∨ v = 0x22#8 ∨ v = 0x23#8 ∨ v = 0x24#8 ∨ v = 0x25#8 := by decide

theorem trapRoutine_serves (v : BitVec 8) (fa : Word) (s : State) : Serves v fa s (trapRoutine v fa s) := by
  cases hv : vectorInService v with
  | false =>
    rw [trapRoutine, (trapDecode_eq_invalid_iff v).2 hv]
    exact invalidTrap_serves hv fa s
  | true =>
    obtain rfl | rfl | rfl | rfl | rfl | rfl := eq_of_vectorInService v hv
    · exact getcRoutine_serves fa s
    · exact outRoutine_serves fa s
    · exact stringRoutine_serves rfl .puts s.putsLap fa s
    · exact inpRoutine_serves fa s
    · exact stringRoutine_serves rfl .putsp s.putspLap fa s
    · exact haltRoutine_serves fa s

/-- A resumed routine does what it may do from its entry. -/
theorem resume_serves (p : Pending) (s : State) : Serves p.routine.vector p.addr s (resume p s) := by
  unfold resume
  cases p.routine with
  | getc => exact getcRoutine_serves p.addr s
  | inp => exact inpWait_serves p.addr s
  | puts => exact stringRoutine_serves rfl .puts s.putsLap p.addr s
  | putsp => exact stringRoutine_serves rfl .putsp s.putspLap p.addr s

/-! ### The registers a routine or an instruction leaves (R21) -/

theorem Serves.reg_of_ne_r0 {v : BitVec 8} {fa : Word} {s t : State} (h : Serves v fa s t) {q : Reg}
    (hq : q ≠ .r0) : t.reg q = s.reg q := by
  obtain hk | ⟨-, b, hr⟩ := h.regs
  · exact State.reg_congr hk.regs q
  · rw [State.reg, hr.regs, Regs.get_set_other _ _ _ _ hq, State.reg]

theorem mem_writtenRegs_trap (v : BitVec 8) (q : Reg) :
    q ∈ writtenRegs (.trap v) ↔ q = .r7 ∨ ((v = 0x20#8 ∨ v = 0x23#8) ∧ q = .r0) := by
  by_cases hv : v = 0x20#8 ∨ v = 0x23#8 <;> simp [writtenRegs, hv]

/-- What a TRAP's routine leaves of the registers as the instruction found them. -/
theorem trapRoutine_reg_of_not_mem {v : BitVec 8} {fa : Word} {s : State} {q : Reg}
    (hq : q ∉ writtenRegs (.trap v)) : (trapRoutine v fa s.trapEntry).reg q = s.reg q := by
  have hserves := trapRoutine_serves v fa s.trapEntry
  obtain ⟨h7, h0⟩ := not_or.1 (mt (mem_writtenRegs_trap v q).2 hq)
  have hlink : s.trapEntry.reg q = s.reg q := by rw [State.reg_trapEntry, if_neg h7]
  obtain hk | ⟨hv, -⟩ := hserves.regs
  · rw [State.reg_congr hk.regs, hlink]
  · rw [hserves.reg_of_ne_r0 fun e => h0 ⟨hv, e⟩, hlink]

/-- Settles O55, by the seven things an instruction can do. -/
theorem onlyTheListedRegistersAreWritten : Obligations.OnlyTheListedRegistersAreWritten := by
  unfold Obligations.OnlyTheListedRegistersAreWritten
  intro i s t h q hq
  cases exec_does h with
  | flagged r v hw _ _ _ ht =>
    rw [ht, State.reg_setRegCC_other]
    simpa [hw] using hq
  | jumps a _ _ ht => rw [ht]; rfl
  | calls a hw _ _ ht =>
    have h7 : q ≠ .r7 := by simpa [hw] using hq
    rw [ht, State.reg_congr (State.setPc_regs _ _), State.reg_link, if_neg h7]
  | stores a v _ _ ht => rw [ht]; rfl
  | serves v hw _ _ ht =>
    rw [ht]
    exact trapRoutine_reg_of_not_mem (hw ▸ hq)
  | invalidTrap v hi ht =>
    subst hi
    have h7 : q ≠ .r7 := by simpa [writtenRegs] using hq
    rw [ht, invalidTrap, State.reg_congr (State.raise_regs _ _), State.reg_trapEntry, if_neg h7]
  | invalidOpcode op low12 _ _ ht => rw [ht]; rfl

/-! ### PC (R22) -/

/-- Settles O56: an instruction that is no control transfer does one of the five things that leave PC. -/
theorem onlyControlTransfersWritePc : Obligations.OnlyControlTransfersWritePc := by
  unfold Obligations.OnlyControlTransfersWritePc
  refine ⟨fun i s t h hpc => ?_, fun p s => (resume_serves p s).pc⟩
  cases exec_does h with
  | flagged r v _ _ _ _ ht => rw [ht]; rfl
  | jumps a _ hw ht => simp [hpc] at hw
  | calls a _ _ hw ht => simp [hpc] at hw
  | stores a v _ _ ht => rw [ht]; rfl
  | serves v _ _ _ ht => rw [ht]; exact (trapRoutine_serves v _ _).pc
  | invalidTrap v _ ht => rw [ht]; rfl
  | invalidOpcode op low12 _ _ ht => rw [ht]; rfl

/-! ### The flags (R24, R25) -/

theorem setcc_eq (v : Word) : setcc v = if v.toInt = 0 then .z else if v.toInt < 0 then .n else .p := by
  have hzero : v.toInt = 0 ↔ v = 0x0000#16 := BitVec.toInt_inj (y := 0x0000#16)
  have hneg : v.getLsbD 15 = decide (v.toInt < 0) := by
    rw [← BitVec.msb_eq_toInt, BitVec.msb_eq_getLsbD_last]
  simp only [setcc, hzero, hneg, decide_eq_true_eq]

theorem bits_setcc (v : Word) :
    (setcc v).bits = if v = 0x0000#16 then 0b010#3 else if v.getLsbD 15 = true then 0b100#3 else 0b001#3 := by
  rw [setcc, apply_ite Cond.bits, apply_ite Cond.bits]
  rfl

theorem setcc_iff_sign (v : Word) :
    (setcc v = .z ↔ v.toInt = 0) ∧ (setcc v = .n ↔ v.toInt < 0) ∧ (setcc v = .p ↔ 0 < v.toInt) := by
  rw [setcc_eq]
  split_ifs with hzero hneg
  · simp [hzero]
  · simp [hzero, hneg, Int.le_of_lt hneg]
  · have hpos : 0 < v.toInt := by omega
    simp [hzero, hneg, hpos]

/-- Settles O9, by the sign of the word. -/
theorem setccClassifiesTheSignedValue : Obligations.SetccClassifiesTheSignedValue := by
  unfold Obligations.SetccClassifiesTheSignedValue
  intro v
  obtain ⟨hzero, hneg, hpos⟩ := setcc_iff_sign v
  exact ⟨hzero, hneg, hpos, bits_setcc v⟩

theorem flagReg_trap (v : BitVec 8) :
    flagReg (.trap v) = if flagsFromConsole (.trap v) then some .r0 else none := by
  simp [flagReg, flagsFromConsole]

/-- The instructions of R25 that write COND from a result, those that write it from a character the console
gave, and the others. -/
theorem exec_cond_cases {i : Instr} {s t : State} (h : exec i s = .next t) :
    (∃ r, flagReg i = some r ∧ flagsFromConsole i = false ∧ t.cond = setcc (t.reg r)) ∨
    (flagReg i = some .r0 ∧ flagsFromConsole i = true ∧
      (t.cond = setcc (t.reg .r0) ∨ (t.cond = s.cond ∧ t.reg .r0 = s.reg .r0))) ∨
    (flagReg i = none ∧ t.cond = s.cond) := by
  cases exec_does h with
  | flagged r v _ hf hc _ ht =>
    exact .inl ⟨r, hf, hc, by rw [ht, State.reg_setRegCC_same]; rfl⟩
  | jumps a hf _ ht => exact .inr (.inr ⟨hf, by rw [ht]; rfl⟩)
  | calls a _ hf _ ht => exact .inr (.inr ⟨hf, by rw [ht]; rfl⟩)
  | stores a v hf _ ht => exact .inr (.inr ⟨hf, by rw [ht]; rfl⟩)
  | serves v _ hf hc ht =>
    rw [flagReg_trap] at hf
    have hregs := (trapRoutine_serves v s.fetchAddr s.trapEntry).regs
    rw [← ht] at hregs
    obtain ⟨regs, cond⟩ | ⟨hv, b, hr⟩ := hregs
    · cases hcon : flagsFromConsole (.trap v) with
      | false => exact .inr (.inr ⟨by simpa [hcon] using hf, cond⟩)
      | true =>
        have hr0 : t.reg .r0 = s.reg .r0 := by rw [State.reg_congr regs, State.reg_trapEntry]; rfl
        exact .inr (.inl ⟨by simpa [hcon] using hf, by rw [hc, hcon], .inr ⟨cond, hr0⟩⟩)
    · have hcon : flagsFromConsole (.trap v) = true := by simpa [flagsFromConsole] using hv
      exact .inr (.inl ⟨by simpa [hcon] using hf, by rw [hc, hcon], .inl hr.cond_eq_setcc⟩)
  | invalidTrap v hi ht => exact .inr (.inr ⟨by rw [hi]; rfl, by rw [ht]; rfl⟩)
  | invalidOpcode op low12 _ hf ht => exact .inr (.inr ⟨hf, by rw [ht]; rfl⟩)

theorem resume_cond_cases (p : Pending) (s : State) :
    (resume p s).cond = s.cond ∨
    ((p.routine = .getc ∨ p.routine = .inp) ∧ (resume p s).cond = setcc ((resume p s).reg .r0)) := by
  obtain ⟨-, cond⟩ | ⟨hv, b, hr⟩ := (resume_serves p s).regs
  · exact .inl cond
  · exact .inr ⟨Suspended.reads_of_vector hv, hr.cond_eq_setcc⟩

/-! ### Who reads the flags (R25) -/

/-- Whatever COND a state has, `f` does the same to everything else. -/
def IgnoresCond (f : State → State) : Prop := ∀ s c, ∃ d, f (s.withCond c) = (f s).withCond d

theorem State.reg_withCond (s : State) (c : Cond) : (s.withCond c).reg = s.reg := rfl

theorem State.outAccepts_withCond (s : State) (c : Cond) : (s.withCond c).outAccepts = s.outAccepts := rfl

theorem State.takeInput_withCond (s : State) (c : Cond) : (s.withCond c).takeInput = s.takeInput.withCond c := rfl

theorem State.emit_withCond (s : State) (c : Cond) (bs : List Byte) :
    (s.withCond c).emit bs = (s.emit bs).withCond c := by
  unfold State.emit
  rw [State.withCond_outRoom]
  split <;> rfl

theorem getcRoutine_ignoresCond (fa : Word) : IgnoresCond (getcRoutine fa) := by
  intro s c
  unfold getcRoutine
  rw [State.withCond_input]
  split
  · exact ⟨c, rfl⟩
  · exact ⟨_, rfl⟩
  · exact ⟨c, rfl⟩

theorem outRoutine_ignoresCond (fa : Word) : IgnoresCond (outRoutine fa) := by
  intro s c
  unfold outRoutine
  rw [State.outAccepts_withCond, State.reg_withCond, State.emit_withCond]
  split <;> exact ⟨c, rfl⟩

theorem stringRoutine_ignoresCond (r : Suspended) (v : BitVec 8) (lap : List Event) (fa : Word) :
    IgnoresCond (stringRoutine r v lap fa) := by
  intro s c
  unfold stringRoutine
  rw [State.outAccepts_withCond, State.withCond_mem, State.reg_withCond, State.emit_withCond]
  dsimp only
  split_ifs <;> exact ⟨c, rfl⟩

theorem putsRoutine_ignoresCond (fa : Word) : IgnoresCond (putsRoutine fa) := fun s c =>
  stringRoutine_ignoresCond .puts 0x22#8 s.putsLap fa s c

theorem putspRoutine_ignoresCond (fa : Word) : IgnoresCond (putspRoutine fa) := fun s c =>
  stringRoutine_ignoresCond .putsp 0x24#8 s.putspLap fa s c

theorem inpWait_ignoresCond (fa : Word) : IgnoresCond (inpWait fa) := by
  intro s c
  unfold inpWait
  rw [State.withCond_input, State.outAccepts_withCond, State.takeInput_withCond]
  split
  · exact ⟨c, rfl⟩
  · rw [State.emit_withCond]
    split <;> exact ⟨_, rfl⟩
  · exact ⟨c, rfl⟩

theorem inpRoutine_ignoresCond (fa : Word) : IgnoresCond (inpRoutine fa) := by
  intro s c
  unfold inpRoutine
  rw [State.withCond_params, State.outAccepts_withCond, State.emit_withCond]
  split
  · exact inpWait_ignoresCond fa _ c
  · exact ⟨c, rfl⟩

theorem haltRoutine_ignoresCond (fa : Word) : IgnoresCond (haltRoutine fa) := by
  intro s c
  unfold haltRoutine
  rw [State.withCond_params, State.outAccepts_withCond, State.emit_withCond]
  split <;> exact ⟨c, rfl⟩

theorem trapRoutine_ignoresCond (v : BitVec 8) (fa : Word) : IgnoresCond (trapRoutine v fa) := by
  unfold trapRoutine
  cases trapDecode v with
  | getc => exact getcRoutine_ignoresCond fa
  | out => exact outRoutine_ignoresCond fa
  | puts => exact putsRoutine_ignoresCond fa
  | inp => exact inpRoutine_ignoresCond fa
  | putsp => exact putspRoutine_ignoresCond fa
  | halt => exact haltRoutine_ignoresCond fa
  | invalid => exact fun s c => ⟨c, rfl⟩

theorem resume_ignoresCond (p : Pending) : IgnoresCond (resume p) := by
  unfold resume
  cases p.routine with
  | getc => exact getcRoutine_ignoresCond p.addr
  | inp => exact inpWait_ignoresCond p.addr
  | puts => exact putsRoutine_ignoresCond p.addr
  | putsp => exact putspRoutine_ignoresCond p.addr

/-- With its own COND put back, the result with another COND is the result. -/
theorem IgnoresCond.withCond_eq {f : State → State} (h : IgnoresCond f) (s : State) (c : Cond) :
    (f (s.withCond c)).withCond (f s).cond = f s := by
  obtain ⟨d, hd⟩ := h s c
  rw [hd]
  rfl

/-- Every instruction but BR does the same to everything but COND; trap entry reads no flag, so a TRAP does
what its routine does. -/
theorem exec_withCond {i : Instr} {s t : State} (c : Cond) (hbr : ∀ nzp off9, i ≠ .br nzp off9)
    (h : exec i s = .next t) : ∃ t', exec i (s.withCond c) = .next t' ∧ t'.withCond t.cond = t := by
  cases i with
  | br nzp off9 => exact absurd rfl (hbr nzp off9)
  | trap v => cases h; exact ⟨_, rfl, (trapRoutine_ignoresCond v _).withCond_eq s.trapEntry c⟩
  | getc => cases h; exact ⟨_, rfl, (getcRoutine_ignoresCond _).withCond_eq s.trapEntry c⟩
  | out => cases h; exact ⟨_, rfl, (outRoutine_ignoresCond _).withCond_eq s.trapEntry c⟩
  | puts => cases h; exact ⟨_, rfl, (putsRoutine_ignoresCond _).withCond_eq s.trapEntry c⟩
  | inp => cases h; exact ⟨_, rfl, (inpRoutine_ignoresCond _).withCond_eq s.trapEntry c⟩
  | putsp => cases h; exact ⟨_, rfl, (putspRoutine_ignoresCond _).withCond_eq s.trapEntry c⟩
  | halt => cases h; exact ⟨_, rfl, (haltRoutine_ignoresCond _).withCond_eq s.trapEntry c⟩
  | _ => cases h; exact ⟨_, rfl, rfl⟩

/-- An image that is loaded is written to memory, and nothing else changes (R294). -/
theorem loadImage_next {img : Image} {s t : State} (h : loadImage img s = .next t) :
    t = { s with mem := s.mem.writeWords img.origin img.words } := by
  unfold loadImage at h
  split at h
  · cases h; rfl
  · cases h

/-- Settles O10: who writes COND, by the three kinds of instruction; and that only BR reads it. -/
theorem flagsAreWrittenOnlyBySetcc : Obligations.FlagsAreWrittenOnlyBySetcc := by
  unfold Obligations.FlagsAreWrittenOnlyBySetcc
  refine ⟨fun i s t h => ?_, resume_cond_cases, fun img s t h => ?_, fun i s t c => exec_withCond c,
    fun p s c => (resume_ignoresCond p).withCond_eq s c⟩
  · obtain ⟨r, hf, hc, hcond⟩ | ⟨hf, hc, hcond⟩ | ⟨hf, hcond⟩ := exec_cond_cases h
    · simp [hf, hc, hcond]
    · simp [hf, hc, hcond]
    · simp [hf, hcond]
  · rw [loadImage_next h]

/-! ### Reset (R32, R292) -/

theorem loadImages_next {imgs : List Image} {s t : State} (h : loadImages imgs s = .next t) :
    t = { s with mem := imgs.foldl (fun m img => m.writeWords img.origin img.words) s.mem } := by
  induction imgs generalizing s with
  | nil => cases h; rfl
  | cons img rest ih =>
    unfold loadImages at h
    cases himg : loadImage img s with
    | next u =>
      rw [himg] at h
      rw [ih h, loadImage_next himg]
      rfl
    | fault f => rw [himg] at h; cases h
    | refused r => rw [himg] at h; cases h

/-- Settles O49: the loader writes memory only, so every other field is the reset sequence's own. -/
theorem resetValues : Obligations.ResetValues := by
  unfold Obligations.ResetValues
  refine ⟨fun gpr ps images s h => ?_, fun a => rfl, rfl⟩
  rw [loadImages_next h]
  exact ⟨Regs.get_ofFn gpr, rfl, rfl, rfl, rfl, rfl, rfl, rfl, rfl⟩

/-- Settles O51: memory is empty, and no error and no unfinished step is recorded. -/
theorem resetMeetsTheInvariant : Obligations.ResetMeetsTheInvariant := by
  unfold Obligations.ResetMeetsTheInvariant
  have hreset (gpr : Reg → Word) (ps : Params) : (State.resetWith gpr ps).Inv := ⟨Memory.wf_nil, rfl, rfl⟩
  exact ⟨hreset, hreset _ _⟩

/-! ### The invariant -/

/-- The machine is running with no step left unfinished: where an instruction is executed. -/
structure Ready (s : State) : Prop where
  mem : s.mem.wf
  run : s.run = .running
  err : s.err = none
  pending : s.pending = none

/-- The machine is running a service routine that the TRAP at `fa` entered: PC and R7 are as the TRAP left
them (R204). -/
structure InRoutine (fa : Word) (s : State) : Prop where
  mem : s.mem.wf
  run : s.run = .running
  err : s.err = none
  pc : s.pc = fa + 1#16
  link : s.reg .r7 = fa + 1#16

theorem inv_of_no_error {s : State} (hmem : s.mem.wf) (herr : s.err = none) (hp : s.pending = none) : s.Inv :=
  ⟨hmem, by simp [State.errOk, herr], by simp [State.pendingOk, hp]⟩

theorem Raises.inv {e : ErrorRecord} {t : State} (h : Raises e t) (hmem : t.mem.wf)
    (he : e.consistent t = true) : t.Inv :=
  ⟨hmem, by simp [State.errOk, h.err, h.run, he], by simp [State.pendingOk, h.pending]⟩

theorem Ready.inv {s : State} (h : Ready s) : s.Inv := inv_of_no_error h.mem h.err h.pending

theorem err_eq_none_of_inv {s : State} (h : s.Inv) (hr : s.run = .running) : s.err = none := by
  obtain ⟨-, herr, -⟩ := h
  cases he : s.err with
  | none => rfl
  | some e => simp [State.errOk, he, hr] at herr

theorem inRoutine_of_pending {s : State} {p : Pending} (h : s.Inv) (hp : s.pending = some p) :
    InRoutine p.addr s := by
  have ⟨hmem, _, hpending⟩ := h
  obtain ⟨⟨hrun, hpc⟩, hlink⟩ : (s.run = .running ∧ s.pc = p.addr + 1#16) ∧ s.reg .r7 = p.addr + 1#16 := by
    simpa [State.pendingOk, hp] using hpending
  exact ⟨hmem, hrun, err_eq_none_of_inv h hrun, hpc, hlink⟩

theorem Ready.inRoutine_trapEntry {s : State} (h : Ready s) : InRoutine s.fetchAddr s.trapEntry where
  mem := h.mem
  run := h.run
  err := h.err
  pc := s.pc_eq_fetchAddr_add
  link := by rw [State.reg_trapEntry, if_pos rfl]; exact s.pc_eq_fetchAddr_add

/-- A service routine keeps the invariant: PC and the link stay, so what it records, or leaves unfinished, is
consistent with them. -/
theorem Serves.inv {v : BitVec 8} {fa : Word} {s t : State} (h : Serves v fa s t) (hs : InRoutine fa s) :
    t.Inv := by
  have hmem : t.mem.wf := h.mem ▸ hs.mem
  have hpc : t.pc = fa + 1#16 := h.pc.trans hs.pc
  have hlink : t.reg .r7 = fa + 1#16 := (h.reg_of_ne_r0 (by decide)).trans hs.link
  cases h.ending with
  | returns hg => exact inv_of_no_error hmem (hg.err.trans hs.err) hg.pending
  | holds r hh =>
    exact ⟨hmem, by simp [State.errOk, hh.err, hs.err], by
      simp [State.pendingOk, hh.pending, hh.run, hs.run, hpc, hlink]⟩
  | halts _ herr hp => exact inv_of_no_error hmem (herr.trans hs.err) hp
  | consoleError hv hr => exact hr.inv hmem (by simp [ErrorRecord.consistent, hpc, hlink, hv])
  | invalidTrap hv hr => exact hr.inv hmem (by simp [ErrorRecord.consistent, hpc, hlink, hv])

/-- The record of a reserved opcode is consistent: its word has that opcode (R253). -/
theorem invalidOpcode_inv {op : Opcode} (hop : op = .rti ∨ op = .res) (low12 : BitVec 12) {s : State}
    (hs : Ready s) : (invalidOpcode op low12 s).Inv := by
  have hraises : Raises (.invalidOpcode s.fetchAddr op.bits (op.bits ++ low12)) (invalidOpcode op low12 s) :=
    ⟨rfl, rfl, rfl⟩
  have hpc : (invalidOpcode op low12 s).pc = s.fetchAddr + 1#16 := s.pc_eq_fetchAddr_add
  have hbits : op.bits = Opcode.rti.bits ∨ op.bits = Opcode.res.bits := hop.imp (congrArg _) (congrArg _)
  exact hraises.inv hs.mem (by simp [ErrorRecord.consistent, hpc, irOp_append, hbits])

/-- Executing an instruction keeps the invariant. -/
theorem exec_inv {i : Instr} {s t : State} (hs : Ready s)
    (hi : ∀ v, i = .trapInvalidVector v → vectorInService v = false) (h : exec i s = .next t) : t.Inv := by
  cases exec_does h with
  | flagged r v _ _ _ _ ht => rw [ht]; exact inv_of_no_error hs.mem hs.err hs.pending
  | jumps a _ _ ht => rw [ht]; exact inv_of_no_error hs.mem hs.err hs.pending
  | calls a _ _ _ ht => rw [ht]; exact inv_of_no_error hs.mem hs.err hs.pending
  | stores a v _ _ ht => rw [ht]; exact inv_of_no_error (Memory.write_wf hs.mem a v) hs.err hs.pending
  | serves v _ _ _ ht => rw [ht]; exact (trapRoutine_serves v _ _).inv hs.inRoutine_trapEntry
  | invalidTrap v hv ht => rw [ht]; exact (invalidTrap_serves (hi v hv) _ _).inv hs.inRoutine_trapEntry
  | invalidOpcode op low12 hop _ ht => rw [ht]; exact invalidOpcode_inv hop low12 hs

/-- Settles O52: an unfinished routine goes on as its TRAP left the machine, and a fetched instruction is
executed in a ready machine. -/
theorem stepKeepsTheInvariant : Obligations.StepKeepsTheInvariant := by
  unfold Obligations.StepKeepsTheInvariant
  intro s t hs h
  obtain ⟨hrun, ⟨p, hp, -, rfl⟩ | ⟨hp, hexec⟩⟩ := step_cases h
  · exact (resume_serves p s).inv (inRoutine_of_pending hs hp)
  · have ⟨hmem, _, _⟩ := hs
    have hready : Ready s.incPc := ⟨hmem, hrun, err_eq_none_of_inv (s := s) hs hrun, hp⟩
    exact exec_inv hready (fun _ => vectorInService_of_decode) hexec

end Sys2Proof.Machine
end

section
/-! Memory across a step (spec/20_memory.md R53, R60 to R62): the history of a step accounts for everything that
reaches memory and the console, and for everything that is learnt of memory. -/

namespace Sys2Proof.Machine

/-! ### The part of a history that happens (R201) -/

@[simp] theorem performed_none (es : List Event) : performed none es = es := by
  cases es <;> rfl

@[simp] theorem performed_nil (room : Option Nat) : performed room [] = [] := by
  cases room <;> rfl

@[simp] theorem performed_read (room : Option Nat) (a : Word) (es : List Event) :
    performed room (.read a :: es) = .read a :: performed room es := by
  obtain _ | _ | _ := room
  · simp
  · rfl
  · rfl

@[simp] theorem performed_write (room : Option Nat) (a v : Word) (es : List Event) :
    performed room (.write a v :: es) = .write a v :: performed room es := by
  obtain _ | _ | _ := room
  · simp
  · rfl
  · rfl

@[simp] theorem performed_out_zero (b : Byte) (es : List Event) : performed (some 0) (.out b :: es) = [] := rfl

@[simp] theorem performed_out_succ (k : Nat) (b : Byte) (es : List Event) :
    performed (some (k + 1)) (.out b :: es) = .out b :: performed (some k) es := rfl

/-- The bytes that happen are those the host has room for. -/
theorem outBytes_performed_some (k : Nat) (es : List Event) :
    outBytes (performed (some k) es) = (outBytes es).take k := by
  induction es generalizing k with
  | nil => simp [outBytes]
  | cons e es ih =>
    cases e with
    | read a => simp [outBytes, ih]
    | write a v => simp [outBytes, ih]
    | out b => cases k <;> simp [outBytes, ih]

/-- A history whose bytes are all accepted happens whole. -/
theorem performed_of_length_le {k : Nat} {es : List Event} (h : (outBytes es).length ≤ k) :
    performed (some k) es = es := by
  induction es generalizing k with
  | nil => rfl
  | cons e es ih =>
    cases e with
    | read a => simp [ih (k := k) h]
    | write a v => simp [ih (k := k) h]
    | out b =>
      obtain _ | k := k
      · simp [outBytes] at h
      · simp [ih (Nat.le_of_succ_le_succ h)]

theorem State.performed_of_accepts {s : State} {es : List Event}
    (h : s.outAccepts (outBytes es).length = true) : performed s.outRoom es = es := by
  cases hr : s.outRoom with
  | none => exact performed_none es
  | some k =>
    rw [State.outAccepts_some hr] at h
    exact performed_of_length_le (of_decide_eq_true h)

/-- `ConsoleOut` of a history's bytes appends those of the part that happens (R201). -/
theorem State.emit_outBytes_output (s : State) (es : List Event) :
    (s.emit (outBytes es)).output = s.output ++ outBytes (performed s.outRoom es) := by
  cases hr : s.outRoom with
  | none => rw [State.emit_output_of_accepts _ _ (State.outAccepts_none hr _), performed_none]
  | some k => rw [State.emit_output_of_room _ _ k hr, outBytes_performed_some]

/-- Where the first of two runs of bytes fails, nothing of the second reaches the stream (R201). -/
theorem State.emit_append_output_of_not_accepts {s : State} {bs : List Byte} (cs : List Byte)
    (h : s.outAccepts bs.length = false) : (s.emit (bs ++ cs)).output = (s.emit bs).output := by
  obtain ⟨k, hr, hk⟩ := State.room_of_not_accepts h
  rw [State.emit_output_of_room _ _ k hr, State.emit_output_of_room _ _ k hr,
    List.take_append_of_le_length (Nat.le_of_lt hk)]

/-! ### Histories without a write -/

/-- No entry of the history is a write. -/
def NoWrites (es : List Event) : Prop := ∀ a v, Event.write a v ∉ es

theorem applyWrites_of_noWrites {es : List Event} (h : NoWrites es) (m : Memory) : applyWrites es m = m := by
  induction es with
  | nil => rfl
  | cons e es ih =>
    have htail : NoWrites es := fun a v hmem => h a v (List.mem_cons_of_mem _ hmem)
    cases e with
    | read a => exact ih htail
    | out b => exact ih htail
    | write a v => exact absurd List.mem_cons_self (h a v)

/-- What happens of a history is among its entries. -/
theorem performed_subset (room : Option Nat) (es : List Event) : performed room es ⊆ es := by
  induction es generalizing room with
  | nil => simp
  | cons e es ih =>
    obtain _ | _ | k := room <;> cases e <;> simp [ih]

theorem NoWrites.performed {es : List Event} (h : NoWrites es) (room : Option Nat) :
    NoWrites (performed room es) :=
  fun a v hmem => h a v (performed_subset room es hmem)

theorem NoWrites.append {xs ys : List Event} (hx : NoWrites xs) (hy : NoWrites ys) : NoWrites (xs ++ ys) :=
  fun a v hmem => (List.mem_append.1 hmem).elim (hx a v) (hy a v)

theorem noWrites_nil : NoWrites [] := fun _ _ => List.not_mem_nil

theorem noWrites_map_out (bs : List Byte) : NoWrites (bs.map .out) := by simp [NoWrites]

theorem noWrites_echoOf (input : List ConsoleAnswer) : NoWrites (echoOf input) := by
  unfold echoOf
  split <;> simp [NoWrites]

theorem noWrites_lapEvents {cell : Word → List Event} (h : ∀ a, NoWrites (cell a)) (m : Memory) (a : Word) :
    NoWrites (lapEvents cell m a) := by
  refine NoWrites.append (fun b v hmem => ?_) ?_
  · obtain ⟨c, -, hc⟩ := List.mem_flatMap.1 hmem
    exact h c b v hc
  · split <;> simp [NoWrites]

theorem noWrites_putsLap (s : State) : NoWrites s.putsLap :=
  noWrites_lapEvents (fun a => by simp [NoWrites, putsCell]) _ _

theorem noWrites_putspLap (s : State) : NoWrites s.putspLap :=
  noWrites_lapEvents (fun a => by unfold putspCell; dsimp only; split_ifs <;> simp [NoWrites]) _ _

/-- No service routine writes memory. -/
theorem routineEvents_noWrites (r : TrapRoutine) (s : State) : NoWrites (routineEvents r s) := by
  cases r with
  | getc => exact noWrites_nil
  | out => exact (noWrites_map_out [_]).performed _
  | puts => exact (noWrites_putsLap s).performed _
  | inp => exact ((noWrites_map_out _).append (noWrites_echoOf _)).performed _
  | putsp => exact (noWrites_putspLap s).performed _
  | halt => exact (noWrites_map_out _).performed _
  | invalid => exact noWrites_nil

theorem resumeEvents_noWrites (p : Pending) (s : State) : NoWrites (resumeEvents p s) := by
  unfold resumeEvents
  cases p.routine with
  | getc => exact noWrites_nil
  | inp => exact (noWrites_echoOf _).performed _
  | puts => exact (noWrites_putsLap s).performed _
  | putsp => exact (noWrites_putspLap s).performed _

/-- Only ST, STI and STR have a write in their history (R53). -/
theorem instrEvents_noWrites {i : Instr} (h : storesMem i = false) (s : State) : NoWrites (instrEvents i s) := by
  cases i with
  | st | sti | str => cases h
  | ld | ldi | ldr => simp [NoWrites, instrEvents]
  | trap | getc | out | puts | inp | putsp | halt => unfold instrEvents; exact routineEvents_noWrites _ _
  | _ => exact noWrites_nil

/-! ### The replay of a history (R62, R201) -/

theorem getcRoutine_output (fa : Word) (s : State) : (getcRoutine fa s).output = s.output := by
  obtain ⟨-, h⟩ | ⟨_, _, -, h⟩ | ⟨_, -, h⟩ := getcRoutine_cases fa s <;> rw [h] <;> rfl

theorem outRoutine_output (fa : Word) (s : State) :
    (outRoutine fa s).output = (s.emit [lowByte (s.reg .r0)]).output := by
  obtain ⟨-, h⟩ | ⟨-, h⟩ := outRoutine_cases fa s <;> rw [h] <;> rfl

theorem stringRoutine_output (r : Suspended) (v : BitVec 8) (lap : List Event) (fa : Word) (s : State) :
    (stringRoutine r v lap fa s).output = (s.emit (outBytes lap)).output := by
  obtain ⟨-, -, h⟩ | ⟨-, -, h⟩ | ⟨-, h⟩ := stringRoutine_cases r v lap fa s <;> rw [h] <;> rfl

theorem haltRoutine_output (fa : Word) (s : State) :
    (haltRoutine fa s).output = (s.emit s.params.haltNotice).output := by
  obtain ⟨-, h⟩ | ⟨-, h⟩ := haltRoutine_cases fa s <;> rw [h] <;> rfl

/-- Taking an answer and `ConsoleOut` touch different ports. -/
theorem State.emit_takeInput_output (s : State) (bs : List Byte) :
    (s.takeInput.emit bs).output = (s.emit bs).output := by
  unfold State.emit
  rw [State.takeInput_outRoom]
  split <;> rfl

theorem inpWait_output (fa : Word) (s : State) :
    (inpWait fa s).output = (s.emit (outBytes (echoOf s.input))).output := by
  obtain ⟨hi, h⟩ | ⟨b, _, hi, -, h⟩ | ⟨b, _, hi, -, h⟩ | ⟨_, hi, h⟩ := inpWait_cases fa s <;>
    rw [h, hi]
  · exact (congrArg State.output s.emit_nil).symm
  · exact s.emit_takeInput_output [b]
  · exact s.emit_takeInput_output [b]
  · exact (congrArg State.output s.emit_nil).symm

/-- IN puts out its prompt and then its echo, up to the first that fails (R208). -/
theorem inpRoutine_output (fa : Word) (s : State) :
    (inpRoutine fa s).output = (s.emit (s.params.inPrompt ++ outBytes (echoOf s.input))).output := by
  obtain ⟨ha, h⟩ | ⟨ha, h⟩ := inpRoutine_cases fa s <;> rw [h]
  · rw [inpWait_output, State.emit_input, State.emit_append _ _ _ ha]
  · rw [State.emit_append_output_of_not_accepts _ ha]
    rfl

theorem trapRoutine_output (v : BitVec 8) (fa : Word) (s : State) :
    (trapRoutine v fa s).output = s.output ++ outBytes (routineEvents (trapDecode v) s) := by
  unfold trapRoutine
  cases trapDecode v with
  | getc => rw [getcRoutine_output]; exact (List.append_nil _).symm
  | out => rw [outRoutine_output]; exact s.emit_outBytes_output [.out (lowByte (s.reg .r0))]
  | puts => exact (stringRoutine_output ..).trans (s.emit_outBytes_output _)
  | inp =>
    have hbytes := s.emit_outBytes_output (s.params.inPrompt.map .out ++ echoOf s.input)
    rw [outBytes_append, outBytes_map_out] at hbytes
    exact (inpRoutine_output fa s).trans hbytes
  | putsp => exact (stringRoutine_output ..).trans (s.emit_outBytes_output _)
  | halt =>
    have hbytes := s.emit_outBytes_output (s.params.haltNotice.map .out)
    rw [outBytes_map_out] at hbytes
    exact (haltRoutine_output fa s).trans hbytes
  | invalid => exact (List.append_nil _).symm

theorem resume_output (p : Pending) (s : State) :
    (resume p s).output = s.output ++ outBytes (resumeEvents p s) := by
  unfold resume resumeEvents
  cases p.routine with
  | getc => rw [getcRoutine_output]; exact (List.append_nil _).symm
  | inp => exact (inpWait_output ..).trans (s.emit_outBytes_output _)
  | puts => exact (stringRoutine_output ..).trans (s.emit_outBytes_output _)
  | putsp => exact (stringRoutine_output ..).trans (s.emit_outBytes_output _)

/-- `t` has the memory and the console output of `s` with the history `es` replayed on them. -/
structure Replays (es : List Event) (s t : State) : Prop where
  mem : t.mem = applyWrites es s.mem
  output : t.output = s.output ++ outBytes es

theorem trapRoutine_replays (v : BitVec 8) (fa : Word) (s : State) :
    Replays (routineEvents (trapDecode v) s) s (trapRoutine v fa s) where
  mem := by rw [applyWrites_of_noWrites (routineEvents_noWrites _ s), (trapRoutine_serves v fa s).mem]
  output := trapRoutine_output v fa s

theorem resume_replays (p : Pending) (s : State) : Replays (resumeEvents p s) s (resume p s) where
  mem := by rw [applyWrites_of_noWrites (resumeEvents_noWrites p s), (resume_serves p s).mem]
  output := resume_output p s

/-- What is replayed on the state after trap entry is replayed on the state before it. -/
theorem Replays.of_trapEntry {es : List Event} {s t : State} (h : Replays es s.trapEntry t) : Replays es s t :=
  ⟨h.mem, h.output⟩

/-- The history of an instruction is replayed by its meaning. -/
theorem exec_replays {i : Instr} {s t : State} (h : exec i s = .next t) : Replays (instrEvents i s) s t := by
  cases i with
  | trap v => cases h; exact (trapRoutine_replays v s.fetchAddr s.trapEntry).of_trapEntry
  | getc => cases h; exact (trapRoutine_replays 0x20#8 s.fetchAddr s.trapEntry).of_trapEntry
  | out => cases h; exact (trapRoutine_replays 0x21#8 s.fetchAddr s.trapEntry).of_trapEntry
  | puts => cases h; exact (trapRoutine_replays 0x22#8 s.fetchAddr s.trapEntry).of_trapEntry
  | inp => cases h; exact (trapRoutine_replays 0x23#8 s.fetchAddr s.trapEntry).of_trapEntry
  | putsp => cases h; exact (trapRoutine_replays 0x24#8 s.fetchAddr s.trapEntry).of_trapEntry
  | halt => cases h; exact (trapRoutine_replays 0x25#8 s.fetchAddr s.trapEntry).of_trapEntry
  | br nzp off9 => cases h; split <;> exact ⟨rfl, (List.append_nil _).symm⟩
  | _ => cases h; exact ⟨rfl, (List.append_nil _).symm⟩

theorem stepEvents_of_pending {s : State} {p : Pending} (hr : s.run = .running) (hp : s.pending = some p) :
    stepEvents s = resumeEvents p s := by
  simp [stepEvents, hr, hp]

theorem stepEvents_of_ready {s : State} (hr : s.run = .running) (hp : s.pending = none) :
    stepEvents s = .read s.pc :: instrEvents (decode s.fetch) s.incPc := by
  simp [stepEvents, hr, hp]

/-- Settles O44: an unfinished routine replays its history, and a fetched instruction its own, which the fetch, a
read, and the PC increment before it leave as it is. -/
theorem memoryAndOutputAreTheHistorysReplay : Obligations.MemoryAndOutputAreTheHistorysReplay := by
  unfold Obligations.MemoryAndOutputAreTheHistorysReplay
  intro s t h
  obtain ⟨hr, ⟨p, hp, -, rfl⟩ | ⟨hp, hexec⟩⟩ := step_cases h
  · rw [stepEvents_of_pending hr hp]
    have hreplay := resume_replays p s
    exact ⟨hreplay.mem, hreplay.output⟩
  · rw [stepEvents_of_ready hr hp]
    have hreplay := exec_replays hexec
    exact ⟨hreplay.mem, hreplay.output⟩

/-! ### Who writes memory (R53) -/

/-- An instruction other than ST, STI and STR leaves memory: its history, which it replays, has no write. -/
theorem exec_mem_of_not_storesMem {i : Instr} {s t : State} (h : exec i s = .next t)
    (hi : storesMem i = false) : t.mem = s.mem := by
  rw [(exec_replays h).mem, applyWrites_of_noWrites (instrEvents_noWrites hi s)]

/-- Settles O41: read after write, and the two replays. -/
theorem onlyStoresWriteMemory : Obligations.OnlyStoresWriteMemory := by
  unfold Obligations.OnlyStoresWriteMemory
  refine ⟨fun m a v hm => ⟨Memory.cellAt_putCell_same hm _ v, fun b hb => ?_⟩,
    fun i s t => exec_mem_of_not_storesMem, fun p s => (resume_serves p s).mem⟩
  exact Memory.cellAt_putCell_other m v fun e => hb (BitVec.eq_of_toNat_eq e)

/-! ### Equal memories, and self-modifying code -/

/-- The cell of an address past the end of the address space is not listed. -/
theorem Memory.cellAt_of_past_end {m : Memory} (h : m.wf) {a : Nat} (ha : 65536 ≤ a) :
    m.cellAt a = 0x0000#16 := by
  induction m with
  | nil => rfl
  | cons c t ih =>
    have hc := (h.2 c (by simp)).1
    have hne : c.1 ≠ a := by omega
    simp [Memory.cellAt, hne, ih (Memory.wf_tail h)]

/-- Settles O42: past the address space both lists read 0x0000, so they read alike everywhere. -/
theorem canonicalMemoriesThatReadAlikeAreEqual : Obligations.CanonicalMemoriesThatReadAlikeAreEqual := by
  unfold Obligations.CanonicalMemoriesThatReadAlikeAreEqual
  intro m n hm hn hread
  refine Memory.ext_cellAt hm hn fun a => ?_
  rcases Nat.lt_or_ge a 65536 with ha | ha
  · simpa [Memory.read, Nat.mod_eq_of_lt ha] using hread (BitVec.ofNat 16 a)
  · rw [Memory.cellAt_of_past_end hm ha, Memory.cellAt_of_past_end hn ha]

/-- With offset 0 the PC-relative address is the incremented PC (R60). -/
theorem State.pcRel_zero (s : State) : s.pcRel 0#9 = s.pc := by
  simp [State.pcRel, addrAdd, sext]

/-- Settles O43: ST SR, #0 stores to the incremented PC, where the next step fetches. -/
theorem storeToTheNextWordIsFetchedNext : Obligations.StoreToTheNextWordIsFetchedNext := by
  unfold Obligations.StoreToTheNextWordIsFetchedNext
  intro s t sr hmem hr hp hdecode hstep
  have ht : t = s.incPc.store s.incPc.pc (s.reg sr) := by
    rw [step_of_ready hr hp, hdecode] at hstep
    cases hstep
    rw [State.pcRel_zero]
    rfl
  have hfetch : t.fetch = s.reg sr := by
    rw [ht]
    exact State.load_store_same (s := s.incPc) hmem _ _
  refine ⟨by rw [ht]; rfl, hfetch, ?_⟩
  rw [step_of_ready (by rw [ht]; exact hr) (by rw [ht]; exact hp), hfetch]

end Sys2Proof.Machine
end

section
/-! What a step learns of memory (spec/20_memory.md R60 to R62): it depends on no cell but those its history
reads. -/

namespace Sys2Proof.Machine

/-! ### The same machine with another memory -/

/-- The same machine with another memory. -/
def State.withMem (s : State) (m : Memory) : State := { s with mem := m }

@[simp] theorem State.withMem_mem (s : State) (m : Memory) : (s.withMem m).mem = m := rfl
@[simp] theorem State.withMem_cond (s : State) (m : Memory) : (s.withMem m).cond = s.cond := rfl
@[simp] theorem State.withMem_input (s : State) (m : Memory) : (s.withMem m).input = s.input := rfl
@[simp] theorem State.withMem_outRoom (s : State) (m : Memory) : (s.withMem m).outRoom = s.outRoom := rfl
@[simp] theorem State.withMem_params (s : State) (m : Memory) : (s.withMem m).params = s.params := rfl

theorem State.reg_withMem (s : State) (m : Memory) : (s.withMem m).reg = s.reg := rfl

theorem State.outAccepts_withMem (s : State) (m : Memory) : (s.withMem m).outAccepts = s.outAccepts := rfl

theorem State.takeInput_withMem (s : State) (m : Memory) : (s.withMem m).takeInput = s.takeInput.withMem m := rfl

theorem State.emit_withMem (s : State) (m : Memory) (bs : List Byte) :
    (s.withMem m).emit bs = (s.emit bs).withMem m := by
  unfold State.emit
  rw [State.withMem_outRoom]
  split <;> rfl

/-! ### The routines that use no memory -/

/-- Whatever memory a state has, `f` does the same to everything else and leaves memory. -/
def IgnoresMem (f : State → State) : Prop := ∀ s m, f (s.withMem m) = (f s).withMem m

theorem getcRoutine_ignoresMem (fa : Word) : IgnoresMem (getcRoutine fa) := by
  intro s m
  unfold getcRoutine
  rw [State.withMem_input]
  split <;> rfl

theorem outRoutine_ignoresMem (fa : Word) : IgnoresMem (outRoutine fa) := by
  intro s m
  unfold outRoutine
  rw [State.outAccepts_withMem, State.reg_withMem, State.emit_withMem]
  split <;> rfl

theorem inpWait_ignoresMem (fa : Word) : IgnoresMem (inpWait fa) := by
  intro s m
  unfold inpWait
  rw [State.withMem_input, State.outAccepts_withMem, State.takeInput_withMem]
  split
  · rfl
  · rw [State.emit_withMem]
    split <;> rfl
  · rfl

theorem inpRoutine_ignoresMem (fa : Word) : IgnoresMem (inpRoutine fa) := by
  intro s m
  unfold inpRoutine
  rw [State.withMem_params, State.outAccepts_withMem, State.emit_withMem]
  split
  · exact inpWait_ignoresMem fa _ m
  · rfl

theorem haltRoutine_ignoresMem (fa : Word) : IgnoresMem (haltRoutine fa) := by
  intro s m
  unfold haltRoutine
  rw [State.withMem_params, State.outAccepts_withMem, State.emit_withMem]
  split <;> rfl

/-! ### Histories that agree until they learn of a difference (R62) -/

section
variable {m m' : Memory}

/-- Two histories, one of a run in `m` and one of the same run in `m'`: the same entries, up to a read of a cell
in which the two memories differ. -/
inductive AgreeUntilLearnt (m m' : Memory) : List Event → List Event → Prop
  | same (es : List Event) : AgreeUntilLearnt m m' es es
  | learns {a : Word} (es es' : List Event) : m'.read a ≠ m.read a →
      AgreeUntilLearnt m m' (.read a :: es) (.read a :: es')
  | cons (e : Event) {es es' : List Event} : AgreeUntilLearnt m m' es es' →
      AgreeUntilLearnt m m' (e :: es) (e :: es')

/-- After the read of one cell the memories may be taken to agree on it. -/
theorem AgreeUntilLearnt.read (a : Word) {es es' : List Event}
    (h : m'.read a = m.read a → AgreeUntilLearnt m m' es es') :
    AgreeUntilLearnt m m' (.read a :: es) (.read a :: es') := by
  by_cases hr : m'.read a = m.read a
  · exact .cons _ (h hr)
  · exact .learns _ _ hr

theorem AgreeUntilLearnt.append {xs xs' ys ys' : List Event} (hx : AgreeUntilLearnt m m' xs xs')
    (hy : AgreeUntilLearnt m m' ys ys') : AgreeUntilLearnt m m' (xs ++ ys) (xs' ++ ys') := by
  induction hx with
  | same es =>
    induction es with
    | nil => exact hy
    | cons e es ih => exact .cons e ih
  | learns es es' hne => exact .learns _ _ hne
  | cons e _ ih => exact .cons e ih

/-- If `m'` agrees with `m` on the cells that the part that happens reads, then the other history is the same, or
in both the host fails an output before anything is learnt. -/
theorem AgreeUntilLearnt.eq_or_output_fails {es es' : List Event} (h : AgreeUntilLearnt m m' es es')
    (room : Option Nat) (hm : ∀ a ∈ readAddrs (performed room es), m'.read a = m.read a) :
    es' = es ∨ ∃ k, room = some k ∧ k < (outBytes es).length ∧ k < (outBytes es').length ∧
      performed (some k) es' = performed (some k) es := by
  induction h generalizing room with
  | same es => exact .inl rfl
  | learns es es' hne => exact absurd (hm _ (by simp [readAddrs])) hne
  | @cons e es es' _ ih =>
    cases e with
    | read | write =>
      refine (ih room fun b hb => hm b ?_).imp (congrArg _) ?_
      · simp [readAddrs, hb]
      · rintro ⟨k, rfl, hk, hk', heq⟩
        exact ⟨k, rfl, hk, hk', by simp [heq]⟩
    | out b =>
      obtain _ | _ | k := room
      · refine (ih none fun c hc => hm c ?_).imp (congrArg _) ?_
        · simpa [readAddrs] using hc
        · rintro ⟨_, ⟨⟩, _⟩
      · exact .inr ⟨0, rfl, by simp [outBytes], by simp [outBytes], rfl⟩
      · refine (ih (some k) fun c hc => hm c ?_).imp (congrArg _) ?_
        · simpa [readAddrs] using hc
        · rintro ⟨_, ⟨⟩, hk, hk', heq⟩
          exact ⟨k + 1, rfl, Nat.succ_lt_succ hk, Nat.succ_lt_succ hk', by simp [heq]⟩

end

@[simp] theorem readAddrs_append (xs ys : List Event) : readAddrs (xs ++ ys) = readAddrs xs ++ readAddrs ys := by
  induction xs with
  | nil => rfl
  | cons e xs ih => cases e <;> simp [readAddrs, ih]

/-! ### The string scan (R207, R209) -/

/-- The events of a scan of at most `n` cells from `a` on, cell by cell. -/
def scanEvents (cell : Word → List Event) (m : Memory) : Nat → Word → List Event
  | 0, _ => []
  | n + 1, a => if m.read a = 0x0000#16 then [.read a] else cell a ++ scanEvents cell m n (a + 1#16)

theorem scanEvents_eq (cell : Word → List Event) (m : Memory) (n : Nat) (a : Word) :
    scanEvents cell m n a = (scanCells m n a).flatMap cell ++
      if (scanCells m n a).length < n then [.read (a + BitVec.ofNat 16 (scanCells m n a).length)] else [] := by
  induction n generalizing a with
  | zero => rfl
  | succ n ih =>
    unfold scanEvents scanCells
    split
    · simp
    · rw [ih, List.flatMap_cons, List.append_assoc, List.length_cons, Nat.add_comm _ 1, BitVec.ofNat_add,
        ← BitVec.add_assoc]
      simp [Nat.add_comm 1]

/-- A lap is a scan of all cells. -/
theorem lapEvents_eq_scanEvents (cell : Word → List Event) (m : Memory) (a : Word) :
    lapEvents cell m a = scanEvents cell m lapCells a := by
  simp [lapEvents, scanEnds, scanEvents_eq]

/-- What a string routine does with a cell begins with its read, and what it learns of memory it reads. -/
structure ReadsWhatItUses (cell : Memory → Word → List Event) : Prop where
  first : ∀ m a, ∃ es, cell m a = .read a :: es
  agree : ∀ m m' a, AgreeUntilLearnt m m' (cell m a) (cell m' a)

theorem putsCell_readsWhatItUses : ReadsWhatItUses putsCell where
  first m a := ⟨_, rfl⟩
  agree m m' a := .read a fun hr => by
    rw [hr]
    exact .same _

theorem putspCell_readsWhatItUses (emitZeroHigh : Bool) : ReadsWhatItUses (putspCell emitZeroHigh) where
  first m a := ⟨_, rfl⟩
  agree m m' a := .read a fun hr => by
    rw [hr]
    refine .cons _ ?_
    by_cases hhigh : highByte (m.read a) ≠ 0x00#8
    · rw [if_pos hhigh, if_pos hhigh]
      exact .same _
    · rw [if_neg hhigh, if_neg hhigh]
      cases emitZeroHigh with
      | false => exact .same _
      | true =>
        refine .read (a + 1#16) fun hnext => ?_
        rw [hnext]
        exact .same _

section
variable {cell : Memory → Word → List Event} (hcell : ReadsWhatItUses cell)
include hcell

/-- A scan of at least one cell begins with the read of the first. -/
theorem ReadsWhatItUses.scanEvents_first (m : Memory) (n : Nat) (a : Word) :
    ∃ es, scanEvents (cell m) m (n + 1) a = .read a :: es := by
  obtain ⟨es, hes⟩ := hcell.first m a
  unfold scanEvents
  split
  · exact ⟨_, rfl⟩
  · exact ⟨_, by rw [hes, List.cons_append]⟩

theorem ReadsWhatItUses.scanEvents_agree (m m' : Memory) (n : Nat) (a : Word) :
    AgreeUntilLearnt m m' (scanEvents (cell m) m n a) (scanEvents (cell m') m' n a) := by
  induction n generalizing a with
  | zero => exact .same []
  | succ n ih =>
    by_cases hr : m'.read a = m.read a
    · unfold scanEvents
      rw [hr]
      split
      · exact .same _
      · exact (hcell.agree m m' a).append (ih _)
    · obtain ⟨es, hes⟩ := hcell.scanEvents_first m n a
      obtain ⟨es', hes'⟩ := hcell.scanEvents_first m' n a
      rw [hes, hes']
      exact .learns _ _ hr

theorem ReadsWhatItUses.lapEvents_agree (m m' : Memory) (a : Word) :
    AgreeUntilLearnt m m' (lapEvents (cell m) m a) (lapEvents (cell m') m' a) := by
  rw [lapEvents_eq_scanEvents, lapEvents_eq_scanEvents]
  exact hcell.scanEvents_agree m m' lapCells a

end

/-- A scan that ends has read the zero cell that ends it, so it ends in every memory that agrees on its reads. -/
theorem scanEnds_of_agree {cell : Word → List Event} {m m' : Memory} {a : Word}
    (h : ∀ b ∈ readAddrs (lapEvents cell m a), m'.read b = m.read b) (he : scanEnds m a = true) :
    scanEnds m' a = true := by
  have hread := h (a + BitVec.ofNat 16 (scanCells m lapCells a).length) (by simp [lapEvents, he, readAddrs])
  have hzero := scanCells_zero m lapCells a (of_decide_eq_true he)
  exact scanEnds_of_zero a (hread.trans hzero)

/-- The same lap in two memories that agree on its reads ends in both or in neither. -/
theorem scanEnds_eq_of_agree {cell cell' : Word → List Event} {m m' : Memory} {a : Word}
    (hlap : lapEvents cell' m' a = lapEvents cell m a)
    (h : ∀ b ∈ readAddrs (lapEvents cell m a), m'.read b = m.read b) : scanEnds m' a = scanEnds m a := by
  rw [Bool.eq_iff_iff]
  refine ⟨scanEnds_of_agree (cell := cell') fun b hb => ?_, scanEnds_of_agree h⟩
  rw [hlap] at hb
  exact (h b hb).symm

/-! ### What a step depends on -/

/-- `f` depends on no memory cell but those that the history `events` reads: with a memory that agrees on them the
history is the same, and so is the result, but for memory. -/
def DependsOnReads (events : State → List Event) (f : State → State) : Prop :=
  ∀ s m, (∀ a ∈ readAddrs (events s), m.read a = s.load a) →
    events (s.withMem m) = events s ∧ (f (s.withMem m)).withMem (f s).mem = f s

theorem dependsOnReads_of_eq_withMem {events : State → List Event} {f : State → State}
    (h : ∀ s m, (∀ a ∈ readAddrs (events s), m.read a = s.load a) →
      events (s.withMem m) = events s ∧ f (s.withMem m) = (f s).withMem m) : DependsOnReads events f := by
  intro s m hm
  obtain ⟨hevents, hstate⟩ := h s m hm
  exact ⟨hevents, by rw [hstate]; rfl⟩

theorem IgnoresMem.dependsOnReads {events : State → List Event} {f : State → State} (hf : IgnoresMem f)
    (he : ∀ s m, events (s.withMem m) = events s) : DependsOnReads events f :=
  dependsOnReads_of_eq_withMem fun s m _ => ⟨he s m, hf s m⟩

/-- The first failure of `ConsoleOut` leaves what there was room for, whatever bytes were to come. -/
theorem State.emit_eq_of_output_fails {s : State} {k : Nat} {bs cs : List Byte} (hr : s.outRoom = some k)
    (hb : k < bs.length) (hc : k < cs.length) (htake : cs.take k = bs.take k) : s.emit cs = s.emit bs := by
  simp [State.emit, hr, htake, Nat.sub_eq_zero_of_le (Nat.le_of_lt hb), Nat.sub_eq_zero_of_le (Nat.le_of_lt hc)]

section
variable {cell : Memory → Word → List Event} (hcell : ReadsWhatItUses cell)
include hcell

/-- A string routine depends on no memory cell but those that its lap reads before an output fails. -/
theorem ReadsWhatItUses.stringRoutine_withMem (r : Suspended) (v : BitVec 8) (fa : Word) (s : State) (m : Memory)
    (hm : ∀ b ∈ readAddrs (performed s.outRoom (lapEvents (cell s.mem) s.mem (s.reg .r0))),
      m.read b = s.mem.read b) :
    performed s.outRoom (lapEvents (cell m) m (s.reg .r0)) =
        performed s.outRoom (lapEvents (cell s.mem) s.mem (s.reg .r0)) ∧
      stringRoutine r v (lapEvents (cell m) m (s.reg .r0)) fa (s.withMem m) =
        (stringRoutine r v (lapEvents (cell s.mem) s.mem (s.reg .r0)) fa s).withMem m := by
  have hagree := hcell.lapEvents_agree s.mem m (s.reg .r0)
  unfold stringRoutine
  rw [State.outAccepts_withMem, State.reg_withMem, State.withMem_mem]
  dsimp only
  obtain hlap | ⟨k, hk, hlt, hlt', hperf⟩ := hagree.eq_or_output_fails s.outRoom hm
  · refine ⟨congrArg _ hlap, ?_⟩
    rw [hlap, State.emit_withMem]
    split
    · rename_i haccepts
      rw [State.performed_of_accepts haccepts] at hm
      rw [scanEnds_eq_of_agree hlap hm]
      split <;> rfl
    · rfl
  · have htake := congrArg outBytes hperf
    rw [outBytes_performed_some, outBytes_performed_some] at htake
    refine ⟨by rw [hk, hperf], ?_⟩
    rw [State.emit_withMem, State.emit_eq_of_output_fails hk hlt hlt' htake, State.outAccepts_some hk,
      State.outAccepts_some hk, if_neg (by simpa using hlt'), if_neg (by simpa using hlt)]
    rfl

end

theorem putsRoutine_dependsOnReads (fa : Word) :
    DependsOnReads (fun s => performed s.outRoom s.putsLap) (putsRoutine fa) :=
  dependsOnReads_of_eq_withMem fun s m =>
    putsCell_readsWhatItUses.stringRoutine_withMem .puts 0x22#8 fa s m

theorem putspRoutine_dependsOnReads (fa : Word) :
    DependsOnReads (fun s => performed s.outRoom s.putspLap) (putspRoutine fa) :=
  dependsOnReads_of_eq_withMem fun s m =>
    (putspCell_readsWhatItUses s.params.putspEmitZeroHighNonfinal).stringRoutine_withMem .putsp 0x24#8 fa s m

theorem trapRoutine_dependsOnReads (v : BitVec 8) (fa : Word) :
    DependsOnReads (routineEvents (trapDecode v)) (trapRoutine v fa) := by
  unfold trapRoutine
  cases trapDecode v with
  | getc => exact (getcRoutine_ignoresMem fa).dependsOnReads fun _ _ => rfl
  | out => exact (outRoutine_ignoresMem fa).dependsOnReads fun _ _ => rfl
  | puts => exact putsRoutine_dependsOnReads fa
  | inp => exact (inpRoutine_ignoresMem fa).dependsOnReads fun _ _ => rfl
  | putsp => exact putspRoutine_dependsOnReads fa
  | halt => exact (haltRoutine_ignoresMem fa).dependsOnReads fun _ _ => rfl
  | invalid => exact IgnoresMem.dependsOnReads (fun _ _ => rfl) fun _ _ => rfl

theorem resume_dependsOnReads (p : Pending) : DependsOnReads (resumeEvents p) (resume p) := by
  unfold resumeEvents resume
  cases p.routine with
  | getc => exact (getcRoutine_ignoresMem p.addr).dependsOnReads fun _ _ => rfl
  | inp => exact (inpWait_ignoresMem p.addr).dependsOnReads fun _ _ => rfl
  | puts => exact putsRoutine_dependsOnReads p.addr
  | putsp => exact putspRoutine_dependsOnReads p.addr

/-- Trap entry reads no memory, so a TRAP depends on what its routine depends on. -/
theorem trap_dependsOnReads (v : BitVec 8) :
    DependsOnReads (fun s => routineEvents (trapDecode v) s.trapEntry)
      (fun s => trapRoutine v s.fetchAddr s.trapEntry) :=
  fun s m => trapRoutine_dependsOnReads v s.fetchAddr s.trapEntry m

/-- A load from an address that memory plays no part in depends on the one cell. -/
theorem load_dependsOnReads (dr : Reg) {addr : State → Word} (ha : ∀ s m, addr (s.withMem m) = addr s) :
    DependsOnReads (fun s => [.read (addr s)]) (fun s => s.setRegCC dr (s.load (addr s))) := by
  refine dependsOnReads_of_eq_withMem fun s m hm => ⟨by rw [ha], ?_⟩
  have hv : (s.withMem m).load (addr s) = s.load (addr s) := hm _ List.mem_cons_self
  rw [ha, hv]
  rfl

/-- The pointer of LDI and STI is the word at the PC-relative address. -/
theorem State.indirect_withMem {s : State} {m : Memory} {off9 : BitVec 9}
    (h : m.read (s.pcRel off9) = s.load (s.pcRel off9)) : (s.withMem m).indirect off9 = s.indirect off9 := h

theorem ldi_dependsOnReads (dr : Reg) (off9 : BitVec 9) :
    DependsOnReads (instrEvents (.ldi dr off9)) (fun s => s.setRegCC dr (s.load (s.indirect off9))) := by
  refine dependsOnReads_of_eq_withMem fun s m hm => ?_
  have hp : (s.withMem m).indirect off9 = s.indirect off9 :=
    State.indirect_withMem (hm _ List.mem_cons_self)
  have hv : (s.withMem m).load (s.indirect off9) = s.load (s.indirect off9) :=
    hm _ (List.mem_cons_of_mem _ List.mem_cons_self)
  refine ⟨by rw [instrEvents, hp]; rfl, ?_⟩
  rw [hp, hv]
  rfl

theorem sti_dependsOnReads (sr : Reg) (off9 : BitVec 9) :
    DependsOnReads (instrEvents (.sti sr off9)) (fun s => s.store (s.indirect off9) (s.reg sr)) := by
  intro s m hm
  have hp : (s.withMem m).indirect off9 = s.indirect off9 :=
    State.indirect_withMem (hm _ List.mem_cons_self)
  exact ⟨by rw [instrEvents, hp]; rfl, rfl⟩

theorem br_dependsOnReads (nzp : BitVec 3) (off9 : BitVec 9) :
    DependsOnReads (instrEvents (.br nzp off9))
      (fun s => if condTaken nzp s.cond then s.setPc (s.pcRel off9) else s) := by
  refine IgnoresMem.dependsOnReads (fun s m => ?_) fun _ _ => rfl
  rw [State.withMem_cond]
  split <;> rfl

/-- The meaning of an instruction depends on no memory cell but those that its history reads. -/
theorem exec_dependsOnReads (i : Instr) :
    ∃ f, (∀ s, exec i s = .next (f s)) ∧ DependsOnReads (instrEvents i) f := by
  cases i with
  | ld dr off9 => exact ⟨_, fun _ => rfl, load_dependsOnReads dr (addr := (State.pcRel · off9)) fun _ _ => rfl⟩
  | ldr dr base off6 =>
    exact ⟨_, fun _ => rfl, load_dependsOnReads dr (addr := (State.baseOffset · base off6)) fun _ _ => rfl⟩
  | ldi dr off9 => exact ⟨_, fun _ => rfl, ldi_dependsOnReads dr off9⟩
  | sti sr off9 => exact ⟨_, fun _ => rfl, sti_dependsOnReads sr off9⟩
  | br nzp off9 => exact ⟨_, fun _ => rfl, br_dependsOnReads nzp off9⟩
  | trap v => exact ⟨_, fun _ => rfl, trap_dependsOnReads v⟩
  | getc => exact ⟨_, fun _ => rfl, trap_dependsOnReads 0x20#8⟩
  | out => exact ⟨_, fun _ => rfl, trap_dependsOnReads 0x21#8⟩
  | puts => exact ⟨_, fun _ => rfl, trap_dependsOnReads 0x22#8⟩
  | inp => exact ⟨_, fun _ => rfl, trap_dependsOnReads 0x23#8⟩
  | putsp => exact ⟨_, fun _ => rfl, trap_dependsOnReads 0x24#8⟩
  | halt => exact ⟨_, fun _ => rfl, trap_dependsOnReads 0x25#8⟩
  | _ => exact ⟨_, fun _ => rfl, fun _ _ _ => ⟨rfl, rfl⟩⟩

/-- Settles O45: the fetch reads the cell at PC, so the other memory gives the same instruction; what it does, and
what an unfinished routine does, depends on the reads of its history. -/
theorem stepReadsOnlyTheCellsOfItsHistory : Obligations.StepReadsOnlyTheCellsOfItsHistory := by
  unfold Obligations.StepReadsOnlyTheCellsOfItsHistory
  intro s t m hm h
  show stepEvents (s.withMem m) = stepEvents s ∧ ∃ t', step (s.withMem m) = .next t' ∧ t'.withMem t.mem = t
  obtain ⟨hr, ⟨p, hp, hawaits, rfl⟩ | ⟨hp, hexec⟩⟩ := step_cases h
  · rw [stepEvents_of_pending hr hp] at hm ⊢
    obtain ⟨hevents, hstate⟩ := resume_dependsOnReads p s m hm
    refine ⟨(stepEvents_of_pending (s := s.withMem m) hr hp).trans hevents, _, ?_, hstate⟩
    rw [step_of_pending (s := s.withMem m) hr hp]
    exact carryOn_of_not_awaits hawaits
  · rw [stepEvents_of_ready hr hp] at hm ⊢
    have hfetch : (s.withMem m).fetch = s.fetch := hm s.pc List.mem_cons_self
    obtain ⟨f, hf, hdep⟩ := exec_dependsOnReads (decode s.fetch)
    obtain ⟨hevents, hstate⟩ := hdep s.incPc m fun a ha => hm a (List.mem_cons_of_mem _ ha)
    obtain rfl : f s.incPc = t := by simpa [hf] using hexec
    rw [stepEvents_of_ready (s := s.withMem m) hr hp, step_of_ready (s := s.withMem m) hr hp, hfetch]
    exact ⟨congrArg _ hevents, _, hf _, hstate⟩

end Sys2Proof.Machine
end

section
/-! The encoding (spec/30_encoding.md): what the decoder reads back from the encoder's words, which bits of a word
it reads at all, and which rows of the table a word matches. -/

namespace Sys2Proof

/-! ### The fields of the encoder's words (R84 to R94) -/

@[simp] theorem opcode_encode39 (op : Opcode) (f : BitVec 3) (g : BitVec 9) :
    Opcode.ofBits (irOp (encode39 op f g)) = op := by
  rw [encode39_irOp, Opcode.ofBits_bits]

@[simp] theorem irNzp_encode39 (op : Opcode) (f : BitVec 3) (g : BitVec 9) : irNzp (encode39 op f g) = f :=
  encode39_mid op f g

@[simp] theorem irDr_encode39 (op : Opcode) (r : Reg) (g : BitVec 9) : irDr (encode39 op r.bits g) = r := by
  rw [irDr, encode39_mid, Reg.ofBits_bits]

@[simp] theorem irOff9_encode39 (op : Opcode) (f : BitVec 3) (g : BitVec 9) : irOff9 (encode39 op f g) = g :=
  encode39_low op f g

@[simp] theorem opcode_encode336 (op : Opcode) (f g : BitVec 3) (l : BitVec 6) :
    Opcode.ofBits (irOp (encode336 op f g l)) = op := by
  rw [encode336_irOp, Opcode.ofBits_bits]

@[simp] theorem irDr_encode336 (op : Opcode) (r : Reg) (g : BitVec 3) (l : BitVec 6) :
    irDr (encode336 op r.bits g l) = r := by
  rw [irDr, encode336_f, Reg.ofBits_bits]

@[simp] theorem irSr1_encode336 (op : Opcode) (f : BitVec 3) (r : Reg) (l : BitVec 6) :
    irSr1 (encode336 op f r.bits l) = r := by
  rw [irSr1, encode336_g, Reg.ofBits_bits]

@[simp] theorem irOff6_encode336 (op : Opcode) (f g : BitVec 3) (l : BitVec 6) :
    irOff6 (encode336 op f g l) = l := by
  rw [irOff6, encode336_low _ _ _ _ _ _ (by omega), BitVec.extractLsb'_eq_self]

@[simp] theorem irSr2_encode336 (op : Opcode) (f g : BitVec 3) (r : Reg) :
    irSr2 (encode336 op f g (0#3 ++ r.bits)) = r := by
  rw [irSr2, encode336_low _ _ _ _ _ _ (by omega), extractLsb'_append_low _ _ _ _ (by omega),
    BitVec.extractLsb'_eq_self, Reg.ofBits_bits]

@[simp] theorem irImm5_encode336 (op : Opcode) (f g : BitVec 3) (b : BitVec 1) (imm5 : BitVec 5) :
    irImm5 (encode336 op f g (b ++ imm5)) = imm5 := by
  rw [irImm5, encode336_low _ _ _ _ _ _ (by omega), extractLsb'_append_low _ _ _ _ (by omega),
    BitVec.extractLsb'_eq_self]

/-- ir[5] is the top bit of the low six. -/
theorem irImode_encode336 (op : Opcode) (f g : BitVec 3) (l : BitVec 6) :
    irImode (encode336 op f g l) = l.getLsbD 5 := by
  rw [irImode, encode336, BitVec.getLsbD_append]
  rfl

@[simp] theorem irImode_encode336_register (op : Opcode) (f g h : BitVec 3) :
    irImode (encode336 op f g (0#3 ++ h)) = false := by
  rw [irImode_encode336, BitVec.getLsbD_append]
  rfl

@[simp] theorem irImode_encode336_immediate (op : Opcode) (f g : BitVec 3) (imm5 : BitVec 5) :
    irImode (encode336 op f g (1#1 ++ imm5)) = true := by
  rw [irImode_encode336, BitVec.getLsbD_append]
  rfl

/-- ir[11] is the top bit of the first 3-bit field. -/
@[simp] theorem irJmode_encode336 (op : Opcode) (f g : BitVec 3) (l : BitVec 6) :
    irJmode (encode336 op f g l) = f.getLsbD 2 := by
  rw [irJmode, encode336, BitVec.getLsbD_append, BitVec.getLsbD_append, BitVec.getLsbD_append]
  rfl

@[simp] theorem opcode_encodeTrap (v : BitVec 8) : Opcode.ofBits (irOp (encodeTrap v)) = .trap := by
  rw [encodeTrap_irOp, Opcode.ofBits_bits]

/-! ### Decode after encode (R102) -/

/-- The base row that an instruction's row narrows, with its operand (spec/INDEX.md); a base row is itself. -/
def baseOf : Instr → Instr
  | .ret => .jmp .r7
  | .getc => .trap 0x20#8
  | .out => .trap 0x21#8
  | .puts => .trap 0x22#8
  | .inp => .trap 0x23#8
  | .putsp => .trap 0x24#8
  | .halt => .trap 0x25#8
  | .trapInvalidVector v => .trap v
  | i => i

theorem decodeBase_encodeTrap (v : BitVec 8) : decodeBase (encodeTrap v) = .trap v := by
  simp [decodeBase, encodeTrap_irVect8]

theorem decodeBase_encode_jsr (off11 : BitVec 11) : decodeBase (encode (.jsr off11)) = .jsr off11 := by
  have hop : irOp (encode (.jsr off11)) = Opcode.jsr.bits := by
    rw [encode, irOp, extractLsb'_append_high _ _ _ _ (by omega), extractLsb'_append_high _ _ _ _ (by omega),
      BitVec.extractLsb'_eq_self]
  have hmode : irJmode (encode (.jsr off11)) = true := by
    rw [encode, irJmode, BitVec.getLsbD_append, BitVec.getLsbD_append]
    rfl
  have hoff : irOff11 (encode (.jsr off11)) = off11 := by
    rw [encode, irOff11, extractLsb'_append_low _ _ _ _ (by omega), BitVec.extractLsb'_eq_self]
  simp [decodeBase, hop, hmode, hoff]

theorem irLow12_append (b : BitVec 4) (low12 : BitVec 12) : irLow12 (b ++ low12) = low12 := by
  rw [irLow12, extractLsb'_append_low _ _ _ _ (by omega), BitVec.extractLsb'_eq_self]

/-- Every field of the base row is read back as it was written. -/
theorem decodeBase_encode (i : Instr) : decodeBase (encode i) = baseOf i := by
  cases i with
  | trap v | trapInvalidVector v => exact decodeBase_encodeTrap v
  | getc | out | puts | inp | putsp | halt => exact decodeBase_encodeTrap _
  | ret => rfl
  | jsr off11 => exact decodeBase_encode_jsr off11
  | rti low12 | res low12 => simp [decodeBase, encode, baseOf, irOp_append, irLow12_append]
  | _ => simp [decodeBase, encode, baseOf]

/-- A vector outside the service range is TRAP's row of the invalid vectors (R99). -/
theorem refineTrap_of_not_service {v : BitVec 8} (h : vectorInService v = false) :
    refineTrap v = .trapInvalidVector v := by
  rw [refineTrap, (trapDecode_eq_invalid_iff v).2 h]

/-- A well-formed instruction is the most refined row, so narrowing its base row gives it back. -/
theorem refine_baseOf {i : Instr} (h : WellFormed i = true) : refine (baseOf i) = i := by
  cases i with
  | jmp base =>
    cases base with
    | r7 => exact absurd h (by decide)
    | _ => rfl
  | trap v => exact absurd h Bool.false_ne_true
  | trapInvalidVector v => exact refineTrap_of_not_service (by simpa [WellFormed] using h)
  | _ => rfl

/-- Settles O3: the base row is read back from the word, and a well-formed instruction is the narrowing of its
base row. -/
theorem decodeOfEncodeIsTheInstruction : Obligations.DecodeOfEncodeIsTheInstruction := by
  unfold Obligations.DecodeOfEncodeIsTheInstruction
  intro i hwf
  rw [decode, decodeBase_encode, refine_baseOf hwf]

/-- Settles O4: what the decoder gives is well formed, so its word decodes to it (O3). -/
theorem everyWordDecodesToAWellFormedInstruction : Obligations.EveryWordDecodesToAWellFormedInstruction := by
  unfold Obligations.EveryWordDecodesToAWellFormedInstruction
  intro w
  exact ⟨decode_wellFormed w, decodeOfEncodeIsTheInstruction _ (decode_wellFormed w)⟩

/-! ### A word under a mask: a field that the mask keeps whole is the word's -/

theorem extractLsb'_and_of_ones (w : Word) {m : Word} {lo len : Nat}
    (h : m.extractLsb' lo len = BitVec.allOnes len) : (w &&& m).extractLsb' lo len = w.extractLsb' lo len := by
  rw [BitVec.extractLsb'_and, h, BitVec.and_allOnes]

theorem irOp_and (w : Word) {m : Word} (h : irOp m = BitVec.allOnes 4) : irOp (w &&& m) = irOp w :=
  extractLsb'_and_of_ones w h

theorem irDr_and (w : Word) {m : Word} (h : m.extractLsb' 9 3 = BitVec.allOnes 3) : irDr (w &&& m) = irDr w := by
  rw [irDr, extractLsb'_and_of_ones w h, irDr]

theorem irSr1_and (w : Word) {m : Word} (h : m.extractLsb' 6 3 = BitVec.allOnes 3) :
    irSr1 (w &&& m) = irSr1 w := by
  rw [irSr1, extractLsb'_and_of_ones w h, irSr1]

theorem irSr2_and (w : Word) {m : Word} (h : m.extractLsb' 0 3 = BitVec.allOnes 3) :
    irSr2 (w &&& m) = irSr2 w := by
  rw [irSr2, extractLsb'_and_of_ones w h, irSr2]

theorem irVect8_and (w : Word) {m : Word} (h : irVect8 m = BitVec.allOnes 8) : irVect8 (w &&& m) = irVect8 w :=
  extractLsb'_and_of_ones w h

theorem irImode_and (w : Word) {m : Word} (h : irImode m = true) : irImode (w &&& m) = irImode w := by
  rw [irImode, BitVec.getLsbD_and, ← irImode, ← irImode, h, Bool.and_true]

theorem irJmode_and (w : Word) {m : Word} (h : irJmode m = true) : irJmode (w &&& m) = irJmode w := by
  rw [irJmode, BitVec.getLsbD_and, ← irJmode, ← irJmode, h, Bool.and_true]

/-- A field of two parts under a mask of two parts. -/
theorem extractLsb'_and_append {n m k : Nat} (w : BitVec n) (lo : Nat) (a : BitVec m) (b : BitVec k) :
    w.extractLsb' lo (m + k) &&& (a ++ b) = (w.extractLsb' (lo + k) m &&& a) ++ (w.extractLsb' lo k &&& b) := by
  rw [← BitVec.extractLsb'_append_extractLsb'_eq_extractLsb' rfl, BitVec.and_append]

/-! ### The base row of a word by its opcode, for the formats that leave bits unnamed (R84, R86, R88, R90, R93,
R94) -/

theorem irOp_of_opcode {w : Word} {op : Opcode} (h : Opcode.ofBits (irOp w) = op) : irOp w = op.bits := by
  rw [← h, Opcode.bits_ofBits]

theorem decodeBase_of_add {w : Word} (h : irOp w = 0x1#4) (hmode : irImode w = false) :
    decodeBase w = .add (irDr w) (irSr1 w) (irSr2 w) := by
  rw [decodeBase, h, hmode]
  rfl

theorem decodeBase_of_and {w : Word} (h : irOp w = 0x5#4) (hmode : irImode w = false) :
    decodeBase w = .and (irDr w) (irSr1 w) (irSr2 w) := by
  rw [decodeBase, h, hmode]
  rfl

theorem decodeBase_of_not {w : Word} (h : irOp w = 0x9#4) : decodeBase w = .not (irDr w) (irSr1 w) := by
  rw [decodeBase, h]
  rfl

theorem decodeBase_of_jmp {w : Word} (h : irOp w = 0xC#4) : decodeBase w = .jmp (irSr1 w) := by
  rw [decodeBase, h]
  rfl

theorem decodeBase_of_jsrr {w : Word} (h : irOp w = 0x4#4) (hmode : irJmode w = false) :
    decodeBase w = .jsrr (irSr1 w) := by
  rw [decodeBase, h, hmode]
  rfl

theorem decodeBase_of_trap {w : Word} (h : irOp w = 0xF#4) : decodeBase w = .trap (irVect8 w) := by
  rw [decodeBase, h]
  rfl

theorem decode_of_rti {w : Word} (h : irOp w = 0x8#4) : decode w = .rti (irLow12 w) := by
  rw [decode, decodeBase, h]
  rfl

theorem decode_of_res {w : Word} (h : irOp w = 0xD#4) : decode w = .res (irLow12 w) := by
  rw [decode, decodeBase, h]
  rfl

/-! ### The unnamed bits (R97) -/

theorem decode_and_registerMode {w : Word} (h : irOp w = 0x1#4 ∨ irOp w = 0x5#4) (hmode : irImode w = false) :
    decode (w &&& 0xFFE7#16) = decode w := by
  have hop : irOp (w &&& 0xFFE7#16) = irOp w := irOp_and w (by decide)
  have hmode' : irImode (w &&& 0xFFE7#16) = false := (irImode_and w (by decide)).trans hmode
  rw [decode, decode]
  obtain h | h := h
  · rw [decodeBase_of_add h hmode, decodeBase_of_add (hop.trans h) hmode', irDr_and w (by decide),
      irSr1_and w (by decide), irSr2_and w (by decide)]
  · rw [decodeBase_of_and h hmode, decodeBase_of_and (hop.trans h) hmode', irDr_and w (by decide),
      irSr1_and w (by decide), irSr2_and w (by decide)]

theorem decode_and_not {w : Word} (h : irOp w = 0x9#4) : decode (w &&& 0xFFC0#16) = decode w := by
  have hop : irOp (w &&& 0xFFC0#16) = irOp w := irOp_and w (by decide)
  rw [decode, decode, decodeBase_of_not h, decodeBase_of_not (hop.trans h), irDr_and w (by decide),
    irSr1_and w (by decide)]

theorem decode_and_jmp {w : Word} (h : irOp w = 0xC#4) : decode (w &&& 0xF1C0#16) = decode w := by
  have hop : irOp (w &&& 0xF1C0#16) = irOp w := irOp_and w (by decide)
  rw [decode, decode, decodeBase_of_jmp h, decodeBase_of_jmp (hop.trans h), irSr1_and w (by decide)]

theorem decode_and_jsrr {w : Word} (h : irOp w = 0x4#4) (hmode : irJmode w = false) :
    decode (w &&& 0xF9C0#16) = decode w := by
  have hop : irOp (w &&& 0xF9C0#16) = irOp w := irOp_and w (by decide)
  have hmode' : irJmode (w &&& 0xF9C0#16) = false := (irJmode_and w (by decide)).trans hmode
  rw [decode, decode, decodeBase_of_jsrr h hmode, decodeBase_of_jsrr (hop.trans h) hmode',
    irSr1_and w (by decide)]

theorem decode_and_trap {w : Word} (h : irOp w = 0xF#4) : decode (w &&& 0xF0FF#16) = decode w := by
  have hop : irOp (w &&& 0xF0FF#16) = irOp w := irOp_and w (by decide)
  rw [decode, decode, decodeBase_of_trap h, decodeBase_of_trap (hop.trans h), irVect8_and w (by decide)]

/-- Settles O6: each format's row reads only fields that the mask keeps whole. -/
theorem unnamedBitsAreIgnored : Obligations.UnnamedBitsAreIgnored := by
  unfold Obligations.UnnamedBitsAreIgnored
  intro w
  exact ⟨fun h hmode => (decode_and_registerMode h hmode).symm, fun h => (decode_and_not h).symm,
    fun h => (decode_and_jmp h).symm, fun h hmode => (decode_and_jsrr h hmode).symm,
    fun h => (decode_and_trap h).symm, fun h => ⟨_, decode_of_rti h⟩, fun h => ⟨_, decode_of_res h⟩⟩

/-! ### The base rows a word matches (R102) -/

/-- The (mask, match) pair of an instruction's row. -/
def rowOf (i : Instr) : Word × Word := (rowMask i, rowMatch i)

/-- A word with this opcode, ir[11] and ir[5], and zeros elsewhere: the bits that tell base rows apart. -/
def selectorWord (op : BitVec 4) (j m : BitVec 1) : Word := op ++ j ++ 0#5 ++ m ++ 0#5

theorem and_selectorMask (w : Word) :
    w &&& 0xF820#16 = selectorWord (irOp w) (w.extractLsb' 11 1) (w.extractLsb' 5 1) := by
  calc w &&& 0xF820#16
    _ = w.extractLsb' 0 (4 + 1 + 5 + 1 + 5) &&&
        (BitVec.allOnes 4 ++ BitVec.allOnes 1 ++ 0#5 ++ BitVec.allOnes 1 ++ 0#5) := by
      rw [BitVec.extractLsb'_eq_self]
      rfl
    _ = _ := by
      simp only [extractLsb'_and_append, BitVec.and_allOnes, BitVec.and_zero]
      rfl

/-- No base row fixes a bit outside the selector's. -/
theorem selectorMask_and_rowMask : ∀ r ∈ baseRows, 0xF820#16 &&& r.1 = r.1 := by
  simp [baseRows]

theorem filter_baseRows_and_selectorMask (w : Word) :
    (baseRows.filter fun r => w &&& 0xF820#16 &&& r.1 == r.2) = baseRows.filter fun r => w &&& r.1 == r.2 := by
  refine List.filter_congr fun r hr => ?_
  rw [BitVec.and_assoc, selectorMask_and_rowMask r hr]

/-- The selector's bits decide the base row. -/
theorem rowOf_decodeBase_and_selectorMask (w : Word) :
    rowOf (decodeBase (w &&& 0xF820#16)) = rowOf (decodeBase w) := by
  rw [decodeBase, decodeBase, irOp_and w (by decide), irImode_and w (by decide), irJmode_and w (by decide)]
  cases Opcode.ofBits (irOp w) with
  | add | and | jsr => dsimp only; split <;> rfl
  | _ => rfl

/-- The sixty-four selectors, one by one. -/
theorem filter_baseRows_selectorWord : ∀ (op : BitVec 4) (j m : BitVec 1),
    (baseRows.filter fun r => selectorWord op j m &&& r.1 == r.2) = [rowOf (decodeBase (selectorWord op j m))] := by
  decide

/-- The one base row a word matches is the row of its base instruction (R102). -/
theorem filter_baseRows (w : Word) :
    (baseRows.filter fun r => w &&& r.1 == r.2) = [rowOf (decodeBase w)] := by
  rw [← filter_baseRows_and_selectorMask, ← rowOf_decodeBase_and_selectorMask, and_selectorMask]
  exact filter_baseRows_selectorWord _ _ _

theorem matchesRow_decodeBase (w : Word) : matchesRow (decodeBase w) w = true := by
  have hmem : rowOf (decodeBase w) ∈ baseRows.filter fun r => w &&& r.1 == r.2 := by
    rw [filter_baseRows]
    exact List.mem_singleton_self _
  exact (List.mem_filter.1 hmem).2

/-! ### The refinement row a word matches (R88, R99) -/

/-- What the vector decoder selects, as a row of the table (R203). -/
theorem refineTrap_eq : ∀ v : BitVec 8, refineTrap v =
    if v = 0x20#8 then .getc else if v = 0x21#8 then .out else if v = 0x22#8 then .puts
    else if v = 0x23#8 then .inp else if v = 0x24#8 then .putsp else if v = 0x25#8 then .halt
    else .trapInvalidVector v := by decide

theorem decode_of_decodeBase_jmp {w : Word} {r : Reg} (h : decodeBase w = .jmp r) :
    decode w = if r = .r7 then .ret else .jmp r := by
  rw [decode, h]
  cases r <;> rfl

theorem decode_of_decodeBase_trap {w : Word} {v : BitVec 8} (h : decodeBase w = .trap v) :
    decode w = refineTrap v := by
  rw [decode, h]
  rfl

theorem decode_eq_decodeBase {w : Word} (hjmp : irOp w ≠ 0xC#4) (htrap : irOp w ≠ 0xF#4) :
    decode w = decodeBase w := by
  unfold decode decodeBase
  cases hop : Opcode.ofBits (irOp w) with
  | jmp => exact absurd (irOp_of_opcode hop) hjmp
  | trap => exact absurd (irOp_of_opcode hop) htrap
  | add | and | jsr => dsimp only; split <;> rfl
  | _ => rfl

/-- A row is matched on the bits it fixes only. -/
theorem matchesRow_and {i : Instr} {m : Word} (h : m &&& rowMask i = rowMask i) (w : Word) :
    matchesRow i (w &&& m) = matchesRow i w := by
  rw [matchesRow, BitVec.and_assoc, h, matchesRow]

theorem and_retMask (w : Word) : w &&& 0xF1C0#16 = irOp w ++ 0#3 ++ w.extractLsb' 6 3 ++ 0#6 := by
  calc w &&& 0xF1C0#16
    _ = w.extractLsb' 0 (4 + 3 + 3 + 6) &&&
        (BitVec.allOnes 4 ++ 0#3 ++ BitVec.allOnes 3 ++ 0#6) := by
      rw [BitVec.extractLsb'_eq_self]
      rfl
    _ = _ := by
      simp only [extractLsb'_and_append, BitVec.and_allOnes, BitVec.and_zero]
      rfl

theorem and_vectorMask (w : Word) : w &&& 0xF0FF#16 = irOp w ++ 0#4 ++ irVect8 w := by
  calc w &&& 0xF0FF#16
    _ = w.extractLsb' 0 (4 + 4 + 8) &&&
        (BitVec.allOnes 4 ++ 0#4 ++ BitVec.allOnes 8) := by
      rw [BitVec.extractLsb'_eq_self]
      rfl
    _ = _ := by
      simp only [extractLsb'_and_append, BitVec.and_allOnes, BitVec.and_zero]
      rfl

theorem matchesRow_ret {w : Word} (h : irOp w = 0xC#4) (hbase : irSr1 w = .r7) : matchesRow .ret w = true := by
  have hfield : w.extractLsb' 6 3 = 7#3 := by
    rw [← Reg.bits_ofBits (w.extractLsb' 6 3), ← irSr1, hbase]
    rfl
  rw [matchesRow, rowMask, and_retMask, h, hfield]
  rfl

/-- The rows of TRAP fix no bit outside the opcode and the vector. -/
theorem vectorMask_and_rowMask :
    ∀ v : BitVec 8, 0xF0FF#16 &&& rowMask (refineTrap v) = rowMask (refineTrap v) := by decide

theorem matchesRow_refineTrap_encodeTrap :
    ∀ v : BitVec 8, matchesRow (refineTrap v) (encodeTrap v) = true := by decide

theorem matchesRow_refineTrap {w : Word} (h : irOp w = 0xF#4) :
    matchesRow (refineTrap (irVect8 w)) w = true := by
  rw [← matchesRow_and (vectorMask_and_rowMask _), and_vectorMask, h]
  exact matchesRow_refineTrap_encodeTrap _

theorem matchesRow_decode (w : Word) : matchesRow (decode w) w = true := by
  by_cases hjmp : irOp w = 0xC#4
  · rw [decode_of_decodeBase_jmp (decodeBase_of_jmp hjmp)]
    split
    · exact matchesRow_ret hjmp ‹_›
    · rw [← decodeBase_of_jmp hjmp]
      exact matchesRow_decodeBase w
  by_cases htrap : irOp w = 0xF#4
  · rw [decode_of_decodeBase_trap (decodeBase_of_trap htrap)]
    exact matchesRow_refineTrap htrap
  · rw [decode_eq_decodeBase hjmp htrap]
    exact matchesRow_decodeBase w

/-- Settles O5: the base rows a word matches are one, by the bits that tell them apart; the refinement row is
matched on BaseR or the vector. -/
theorem everyWordMatchesExactlyOneBaseRow : Obligations.EveryWordMatchesExactlyOneBaseRow := by
  unfold Obligations.EveryWordMatchesExactlyOneBaseRow
  intro w
  exact ⟨congrArg List.length (filter_baseRows w), matchesRow_decodeBase w, matchesRow_decode w,
    fun _ h => decode_of_decodeBase_jmp h, fun v h => (decode_of_decodeBase_trap h).trans (refineTrap_eq v)⟩

/-! ### The spec's own words and numbers (R82) -/

/-- Settles O1, word by word. -/
theorem decodesTheWordsOfTheDecoderTable : Obligations.DecodesTheWordsOfTheDecoderTable := by
  unfold Obligations.DecodesTheWordsOfTheDecoderTable
  decide

/-- Settles O2, value by value. -/
theorem opcodeMapIsTheSpecs : Obligations.OpcodeMapIsTheSpecs := by
  unfold Obligations.OpcodeMapIsTheSpecs
  decide

end Sys2Proof

namespace Sys2Proof.Machine

/-! ### The meaning of a refinement row (R152, R204) -/

/-- TRAP runs the routine its vector selects, and the row that the vector selects runs that routine too. -/
theorem exec_refineTrap (v : BitVec 8) (s : State) : exec (refineTrap v) s = exec (.trap v) s := by
  show _ = Host.Outcome.next (trapRoutine v s.fetchAddr s.trapEntry)
  unfold refineTrap trapRoutine
  cases trapDecode v <;> rfl

/-- Settles O39: JMP narrows to RET at R7 only, and TRAP by its vector. -/
theorem refinementRowsKeepTheirBaseRowsMeaning : Obligations.RefinementRowsKeepTheirBaseRowsMeaning := by
  unfold Obligations.RefinementRowsKeepTheirBaseRowsMeaning
  intro i s
  cases i with
  | jmp base => cases base <;> rfl
  | trap v => exact exec_refineTrap v s
  | _ => rfl

end Sys2Proof.Machine
end

section
/-! The execute step (spec/40_fetch_execute.md R120 to R127, R130): when it stops, what it runs, what the host may do
beside it, and the cause of each way a run ends or a step stays unfinished (R250 to R256). -/

namespace Sys2Proof.Machine

/-! ### What a step runs, and where it stops (R120, R126, R127) -/

/-- An unfinished step that is no hold, or a hold with an answer, goes on (R126). -/
theorem Pending.not_awaits {p : Pending} {s : State} (h : p.routine = .getc ∨ p.routine = .inp → s.input ≠ []) :
    p.awaits s = false :=
  Bool.eq_false_iff.2 fun ha => by
    obtain ⟨hhold, hinput⟩ := (p.awaits_iff s).1 ha
    exact h hhold hinput

theorem step_of_awaits {s : State} {p : Pending} (hr : s.run = .running) (hp : s.pending = some p)
    (ha : p.awaits s = true) : step s = .fault .waiting := by
  rw [step_of_pending hr hp, carryOn_of_awaits ha]

theorem step_of_not_awaits {s : State} {p : Pending} (hr : s.run = .running) (hp : s.pending = some p)
    (ha : p.awaits s = false) : step s = .next (resume p s) := by
  rw [step_of_pending hr hp, carryOn_of_not_awaits ha]

/-- Settles O46: a ready machine executes what it fetches; a resumed one goes on, unless it is an unanswered hold. -/
theorem stepRunsTheDecodedInstruction : Obligations.StepRunsTheDecodedInstruction := by
  unfold Obligations.StepRunsTheDecodedInstruction
  refine ⟨fun s i hr hp hi => ?_, fun s p hr hp => ⟨fun h => ?_, fun hhold hinput => ?_⟩⟩
  · rw [step_of_ready hr hp, ← hi]
    rfl
  · refine step_of_not_awaits hr hp (Pending.not_awaits fun hhold => ?_)
    obtain h | h | h := h
    · simp [h] at hhold
    · simp [h] at hhold
    · exact h
  · exact step_of_awaits hr hp ((p.awaits_iff s).2 ⟨hhold, hinput⟩)

theorem tableWord_toNat (w : Word) : tableWord 16 w.toNat = w := by
  rw [tableWord, Nat.mod_eq_of_lt w.isLt, BitVec.ofNat_toNat, BitVec.setWidth_eq]

/-- Settles O47: the placed word is fetched, in a machine that is made ready. -/
theorem placedWordIsTheNextInstruction : Obligations.PlacedWordIsTheNextInstruction := by
  unfold Obligations.PlacedWordIsTheNextInstruction
  intro s w hmem
  constructor
  · rw [step_of_ready rfl rfl, State.fetch_withFetchWord hmem, tableWord_toNat]
  · rw [decodeTableWord, if_pos (Nat.le_refl 16), tableWord_toNat]

/-- Settles O48: in RUNNING only an unanswered hold stops; everything else goes on or executes an instruction. -/
theorem stepStopsExactlyWhenHaltedOrWaiting : Obligations.StepStopsExactlyWhenHaltedOrWaiting := by
  unfold Obligations.StepStopsExactlyWhenHaltedOrWaiting
  intro s
  refine ⟨step_of_halted, fun p hr hp hhold hinput => ?_, fun hr hanswered => ?_⟩
  · exact step_of_awaits hr hp ((p.awaits_iff s).2 ⟨hhold, hinput⟩)
  · cases hp : s.pending with
    | none => rw [step_of_ready hr hp]; exact exec_next _ _
    | some p => exact ⟨_, step_of_not_awaits hr hp (Pending.not_awaits (hanswered p hp))⟩

/-! ### What the host does (R130, R201, R202, R294) -/

/-- Settles O53: the invariant speaks of no console port, and the loader keeps memory canonical. -/
theorem hostKeepsTheInvariant : Obligations.HostKeepsTheInvariant := by
  unfold Obligations.HostKeepsTheInvariant
  intro s hs
  refine ⟨fun a => hs, fun n => hs, fun img t h => ?_⟩
  obtain ⟨hmem, herr, hpending⟩ := hs
  rw [loadImage_next h]
  exact ⟨Memory.writeWords_wf hmem _ _, herr, hpending⟩

/-! ### The hold of GETC and IN (R126, R202) -/

/-- An answer and an output touch different ports. -/
theorem State.emit_answer (s : State) (a : ConsoleAnswer) (bs : List Byte) :
    (s.answer a).emit bs = (s.emit bs).answer a := by
  unfold State.emit
  rw [State.answer_outRoom]
  split <;> rfl

/-- A GETC that gets its answer ends alike, held or not. -/
theorem getcRoutine_suspend {s : State} (h : s.input ≠ []) (fa : Word) (p : Pending) :
    getcRoutine fa (s.suspend p) = getcRoutine fa s := by
  unfold getcRoutine
  rw [State.suspend_input]
  split
  · contradiction
  · rfl
  · rfl

theorem State.takeInput_suspend (s : State) (p : Pending) : (s.suspend p).takeInput = s.takeInput.suspend p := rfl

theorem State.outAccepts_suspend (s : State) (p : Pending) : (s.suspend p).outAccepts = s.outAccepts := rfl

theorem State.emit_suspend (s : State) (p : Pending) (bs : List Byte) :
    (s.suspend p).emit bs = (s.emit bs).suspend p := by
  unfold State.emit
  rw [State.suspend_outRoom]
  split <;> rfl

/-- An IN that gets its answer ends alike, held or not. -/
theorem inpWait_suspend {s : State} (h : s.input ≠ []) (fa : Word) (p : Pending) :
    inpWait fa (s.suspend p) = inpWait fa s := by
  unfold inpWait
  rw [State.suspend_input]
  split
  · contradiction
  · rw [State.outAccepts_suspend, State.takeInput_suspend, State.emit_suspend]
    split <;> rfl
  · rfl

/-- `h` is the hold that the instruction `i` leaves at `s`, and with an answer the routine goes on from `h` to where
`i` comes from `s` with that answer there before. -/
structure WaitsIn (p : Pending) (i : Instr) (s h : State) : Prop where
  isHold : p.routine = .getc ∨ p.routine = .inp
  pending : h.pending = some p
  run : h.run = s.run
  input : h.input = s.input
  answered : ∀ a, exec i (s.answer a) = .next (resume p (h.answer a))

theorem State.answer_input_ne_nil (s : State) (a : ConsoleAnswer) : (s.answer a).input ≠ [] := by simp

theorem execGetc_waits {s h : State} (hinput : s.input = []) (hexec : exec .getc s = .next h) :
    WaitsIn ⟨.getc, s.fetchAddr⟩ .getc s h := by
  have hh : h = s.trapEntry.suspend ⟨.getc, s.fetchAddr⟩ := by
    cases hexec
    simp [getcRoutine, hinput]
  subst hh
  refine ⟨.inl rfl, rfl, rfl, rfl, fun a => congrArg Host.Outcome.next ?_⟩
  exact (getcRoutine_suspend (s := (s.answer a).trapEntry) (s.answer_input_ne_nil a) _ _).symm

/-- IN waits after its prompt, if the host accepted that (R208). -/
theorem execInp_waits {s h : State} (hinput : s.input = []) (hexec : exec .inp s = .next h)
    (hheld : h.pending ≠ none) : WaitsIn ⟨.inp, s.fetchAddr⟩ .inp s h := by
  obtain rfl : inpRoutine s.fetchAddr s.trapEntry = h := by cases hexec; rfl
  obtain ⟨haccepts, hprompt⟩ | ⟨-, hfails⟩ := inpRoutine_cases s.fetchAddr s.trapEntry
  · have hh : inpWait s.fetchAddr (s.trapEntry.emit s.params.inPrompt) =
        (s.trapEntry.emit s.params.inPrompt).suspend ⟨.inp, s.fetchAddr⟩ := by
      simp [inpWait, hinput]
    rw [hprompt, State.trapEntry_params, hh]
    refine ⟨.inr rfl, rfl, State.emit_run _ _, State.emit_input _ _, fun a => congrArg Host.Outcome.next ?_⟩
    calc inpRoutine s.fetchAddr (s.answer a).trapEntry
      _ = inpWait s.fetchAddr ((s.trapEntry.answer a).emit s.params.inPrompt) := if_pos haccepts
      _ = inpWait s.fetchAddr ((s.trapEntry.emit s.params.inPrompt).answer a) := by rw [State.emit_answer]
      _ = inpWait s.fetchAddr (((s.trapEntry.emit s.params.inPrompt).answer a).suspend ⟨.inp, s.fetchAddr⟩) :=
        (inpWait_suspend (State.answer_input_ne_nil _ a) _ _).symm
  · exact absurd (by rw [hfails]; rfl) hheld

/-- Settles O40: without an answer the hold awaits one, at any output limit, and with an answer it goes on. -/
theorem waitingForTheConsoleIsTransparent : Obligations.WaitingForTheConsoleIsTransparent := by
  unfold Obligations.WaitingForTheConsoleIsTransparent
  intro i s h hi hr _ hinput hexec hheld
  obtain ⟨p, hwaits⟩ : ∃ p, WaitsIn p i s h := by
    obtain rfl | rfl := hi
    · exact ⟨_, execGetc_waits hinput hexec⟩
    · exact ⟨_, execInp_waits hinput hexec hheld⟩
  have hrun : h.run = .running := hwaits.run.trans hr
  have hawaits : p.awaits h = true := (p.awaits_iff h).2 ⟨hwaits.isHold, hwaits.input.trans hinput⟩
  refine ⟨step_of_awaits hrun hwaits.pending hawaits,
    fun n => step_of_awaits (s := h.setOutRoom n) hrun hwaits.pending hawaits, fun a => ?_⟩
  rw [hwaits.answered, step_of_not_awaits (s := h.answer a) hrun hwaits.pending]
  exact Pending.not_awaits fun _ => h.answer_input_ne_nil a

/-! ### What a fetched word comes to (R102, R152, R204) -/

/-- The history of a TRAP's row is its routine's. -/
theorem instrEvents_refineTrap (v : BitVec 8) (s : State) :
    instrEvents (refineTrap v) s = routineEvents (trapDecode v) s.trapEntry := by
  unfold refineTrap
  cases trapDecode v <;> rfl

theorem decode_of_trap {w : Word} (h : irOp w = 0xF#4) : decode w = refineTrap (irVect8 w) :=
  decode_of_decodeBase_trap (decodeBase_of_trap h)

/-- A word is its opcode and its low twelve bits (R81, R94). -/
theorem irOp_append_irLow12 (w : Word) : irOp w ++ irLow12 w = w := by
  calc irOp w ++ irLow12 w
    _ = w.extractLsb' 0 (4 + 12) := BitVec.extractLsb'_append_extractLsb'_eq_extractLsb' rfl
    _ = w := BitVec.extractLsb'_eq_self

/-- Executing a word runs the routine of a TRAP's vector, raises InvalidOpcode at a reserved opcode, and for every
other opcode leaves run state, latch and unfinished step alone. -/
theorem exec_decode_cases {w : Word} {s t : State} (h : exec (decode w) s = .next t) :
    (irOp w = 0xF#4 ∧ t = trapRoutine (irVect8 w) s.fetchAddr s.trapEntry) ∨
    ((irOp w = 0x8#4 ∨ irOp w = 0xD#4) ∧ t = s.raise (.invalidOpcode s.fetchAddr (irOp w) w)) ∨
    (t.run = s.run ∧ t.err = s.err ∧ t.pending = s.pending) := by
  rw [decode, refinementRowsKeepTheirBaseRowsMeaning, decodeBase] at h
  generalize hop : Opcode.ofBits (irOp w) = op at h
  cases op with
  | trap =>
    cases h
    exact .inl ⟨irOp_of_opcode hop, rfl⟩
  | rti | res =>
    have hbits := irOp_of_opcode hop
    cases h
    refine .inr (.inl ⟨by simp [hbits, Opcode.bits], ?_⟩)
    rw [invalidOpcode, ← hbits, irOp_append_irLow12]
  | br =>
    cases h
    split <;> exact .inr (.inr ⟨rfl, rfl, rfl⟩)
  | add | and | jsr =>
    dsimp only at h
    split at h <;> cases h <;> exact .inr (.inr ⟨rfl, rfl, rfl⟩)
  | _ =>
    cases h
    exact .inr (.inr ⟨rfl, rfl, rfl⟩)

/-! ### The vectors of the routines (R99, R203) -/

theorem Suspended.vector_injective {q r : Suspended} (h : q.vector = r.vector) : q = r := by
  revert h
  cases q <;> cases r <;> decide

theorem Suspended.vector_inService (r : Suspended) : vectorInService r.vector = true := by
  cases r <;> rfl

theorem Suspended.vector_ne_halt (r : Suspended) : r.vector ≠ 0x25#8 := by
  cases r <;> decide

theorem vectorInService_eq_true_iff (v : BitVec 8) : vectorInService v = true ↔ 0x20#8 ≤ v ∧ v ≤ 0x25#8 := by
  simp [vectorInService]

theorem vectorInService_eq_false_iff (v : BitVec 8) : vectorInService v = false ↔ v < 0x20#8 ∨ 0x25#8 < v := by
  rw [← Bool.not_eq_true, vectorInService_eq_true_iff, not_and_or, BitVec.not_le, BitVec.not_le]

/-! ### Why a service routine ends as it does (R205 to R211, R253 to R256) -/

/-- A `ConsoleOut` failed and used up the host's room, or, with every output accepted, GETC or IN took an input
failure (R255). -/
def ConsoleFails (v : BitVec 8) (bytes : List Byte) (s t : State) : Prop :=
  (s.outAccepts bytes.length = false ∧ v ≠ 0x20#8 ∧ t.outRoom = some 0) ∨
    (s.outAccepts bytes.length = true ∧ (v = 0x20#8 ∨ v = 0x23#8) ∧ s.input = .failure :: t.input)

/-- How the routine of vector `v`, entered by the TRAP at `fa`, ends, with the cause; `bytes` are those that it
outputs at a host that never fails. -/
inductive EndsBecause (v : BitVec 8) (fa : Word) (bytes : List Byte) (s t : State) : Prop
  | returns : GoesOn s t → EndsBecause v fa bytes s t
  | holds (r : Suspended) : r.vector = v → (r = .getc ∨ r = .inp → s.input = []) →
      (r = .puts ∨ r = .putsp → ∀ a, s.load a ≠ 0x0000#16) → Holds ⟨r, fa⟩ s t → EndsBecause v fa bytes s t
  | halts : v = 0x25#8 → t.run = .halted → t.err = s.err → t.pending = none → EndsBecause v fa bytes s t
  | consoleError : ConsoleFails v bytes s t → vectorInService v = true → Raises (.consoleIOError fa v) t →
      EndsBecause v fa bytes s t
  | invalidTrap : vectorInService v = false → Raises (.invalidTrap fa v) t → EndsBecause v fa bytes s t

/-- The host's room is used up by an output that fails. -/
theorem State.emit_outRoom_of_not_accepts {s : State} {bs : List Byte} (h : s.outAccepts bs.length = false) :
    (s.emit bs).outRoom = some 0 := by
  obtain ⟨k, hr, hk⟩ := State.room_of_not_accepts h
  simp [State.emit_outRoom, hr, Nat.sub_eq_zero_of_le (Nat.le_of_lt hk)]

/-- After an output the host accepts the rest of a longer one that it accepts. -/
theorem State.outAccepts_emit {s : State} {bs : List Byte} (h : s.outAccepts bs.length = true) (n : Nat) :
    (s.emit bs).outAccepts n = s.outAccepts (bs.length + n) := by
  unfold State.outAccepts at *
  rw [State.emit_outRoom]
  cases hr : s.outRoom with
  | none => rfl
  | some k =>
    have hk : bs.length ≤ k := by simpa [hr] using h
    simp [Nat.le_sub_iff_add_le hk, Nat.add_comm]

theorem State.outAccepts_zero (s : State) : s.outAccepts 0 = true := by
  unfold State.outAccepts
  split <;> simp

theorem getcRoutine_endsBecause (fa : Word) (s : State) : EndsBecause 0x20#8 fa [] s (getcRoutine fa s) := by
  obtain ⟨hi, h⟩ | ⟨b, -, -, h⟩ | ⟨rest, hi, h⟩ := getcRoutine_cases fa s <;> rw [h]
  · exact .holds .getc rfl (fun _ => hi) (by simp) ⟨rfl, rfl, rfl⟩
  · exact .returns ⟨rfl, rfl, rfl⟩
  · exact .consoleError (.inr ⟨s.outAccepts_zero, .inl rfl, by simp [hi]⟩) rfl ⟨rfl, rfl, rfl⟩

theorem outRoutine_endsBecause (fa : Word) (s : State) :
    EndsBecause 0x21#8 fa [lowByte (s.reg .r0)] s (outRoutine fa s) := by
  obtain ⟨-, h⟩ | ⟨ha, h⟩ := outRoutine_cases fa s <;> rw [h]
  · exact .returns ⟨State.emit_run _ _, State.emit_err _ _, rfl⟩
  · exact .consoleError (.inl ⟨ha, by decide, State.emit_outRoom_of_not_accepts ha⟩) rfl ⟨rfl, rfl, rfl⟩

theorem stringRoutine_endsBecause {r : Suspended} (hr : r = .puts ∨ r = .putsp) (lap : List Event) (fa : Word)
    (s : State) : EndsBecause r.vector fa (outBytes lap) s (stringRoutine r r.vector lap fa s) := by
  obtain ⟨-, -, h⟩ | ⟨-, hscan, h⟩ | ⟨ha, h⟩ := stringRoutine_cases r r.vector lap fa s <;> rw [h]
  · exact .returns ⟨State.emit_run _ _, State.emit_err _ _, rfl⟩
  · refine .holds r rfl (fun hhold => ?_) (fun _ => nonzero_of_not_scanEnds hscan)
      ⟨State.emit_run _ _, State.emit_err _ _, rfl⟩
    obtain rfl | rfl := hr <;> simp at hhold
  · have hvector : r.vector ≠ 0x20#8 := by obtain rfl | rfl := hr <;> decide
    exact .consoleError (.inl ⟨ha, hvector, State.emit_outRoom_of_not_accepts ha⟩) r.vector_inService
      ⟨rfl, rfl, rfl⟩

theorem putsRoutine_endsBecause (fa : Word) (s : State) :
    EndsBecause 0x22#8 fa (outBytes s.putsLap) s (putsRoutine fa s) :=
  stringRoutine_endsBecause (r := .puts) (.inl rfl) s.putsLap fa s

theorem putspRoutine_endsBecause (fa : Word) (s : State) :
    EndsBecause 0x24#8 fa (outBytes s.putspLap) s (putspRoutine fa s) :=
  stringRoutine_endsBecause (r := .putsp) (.inr rfl) s.putspLap fa s

theorem inpWait_endsBecause (fa : Word) (s : State) :
    EndsBecause 0x23#8 fa (outBytes (echoOf s.input)) s (inpWait fa s) := by
  obtain ⟨hi, h⟩ | ⟨b, -, -, -, h⟩ | ⟨b, _, hi, ha, h⟩ | ⟨rest, hi, h⟩ := inpWait_cases fa s <;> rw [h]
  · exact .holds .inp rfl (fun _ => hi) (by simp) ⟨rfl, rfl, rfl⟩
  · exact .returns ⟨State.emit_run _ _, State.emit_err _ _, rfl⟩
  · rw [hi]
    exact .consoleError (.inl ⟨ha, by decide, State.emit_outRoom_of_not_accepts (s := s.takeInput) ha⟩) rfl
      ⟨rfl, rfl, rfl⟩
  · rw [hi]
    exact .consoleError (.inr ⟨s.outAccepts_zero, .inr rfl, by simp [hi]⟩) rfl ⟨rfl, rfl, rfl⟩

/-- What a routine does from a state reached inside the step, it does from the step's own state, if the bytes that
are accepted between the two are counted. -/
theorem EndsBecause.of_earlier {v : BitVec 8} {fa : Word} {bytes rest : List Byte} {s u t : State}
    (hrun : u.run = s.run) (herr : u.err = s.err) (hmem : u.mem = s.mem) (hinput : u.input = s.input)
    (hroom : u.outAccepts rest.length = s.outAccepts bytes.length) (h : EndsBecause v fa rest u t) :
    EndsBecause v fa bytes s t := by
  cases h with
  | returns hg => exact .returns ⟨hg.run.trans hrun, hg.err.trans herr, hg.pending⟩
  | holds r hv hi hz hh =>
    refine .holds r hv (fun hhold => hinput ▸ hi hhold) (fun hstring a => ?_)
      ⟨hh.run.trans hrun, hh.err.trans herr, hh.pending⟩
    rw [← State.load_congr hmem a]
    exact hz hstring a
  | halts hv hh he hp => exact .halts hv hh (he.trans herr) hp
  | consoleError hfails hv hr =>
    rw [ConsoleFails, hroom, hinput] at hfails
    exact .consoleError hfails hv hr
  | invalidTrap hv hr => exact .invalidTrap hv hr

/-- IN outputs its prompt and then the echo (R208). -/
theorem inpRoutine_endsBecause (fa : Word) (s : State) :
    EndsBecause 0x23#8 fa (outBytes (s.params.inPrompt.map .out ++ echoOf s.input)) s (inpRoutine fa s) := by
  rw [outBytes_append, outBytes_map_out]
  obtain ⟨ha, h⟩ | ⟨ha, h⟩ := inpRoutine_cases fa s <;> rw [h]
  · refine (inpWait_endsBecause fa (s.emit s.params.inPrompt)).of_earlier (s.emit_run _) (s.emit_err _)
      (s.emit_mem _) (s.emit_input _) ?_
    rw [State.outAccepts_emit ha, State.emit_input, List.length_append]
  · obtain ⟨k, hr, hk⟩ := State.room_of_not_accepts ha
    refine .consoleError (.inl ⟨?_, by decide, State.emit_outRoom_of_not_accepts ha⟩) rfl ⟨rfl, rfl, rfl⟩
    rw [State.outAccepts_some hr, List.length_append, decide_eq_false_iff_not]
    omega

theorem haltRoutine_endsBecause (fa : Word) (s : State) :
    EndsBecause 0x25#8 fa (outBytes (s.params.haltNotice.map .out)) s (haltRoutine fa s) := by
  rw [outBytes_map_out]
  obtain ⟨-, h⟩ | ⟨ha, h⟩ := haltRoutine_cases fa s <;> rw [h]
  · exact .halts rfl rfl (s.emit_err _) rfl
  · exact .consoleError (.inl ⟨ha, by decide, State.emit_outRoom_of_not_accepts ha⟩) rfl ⟨rfl, rfl, rfl⟩

/-- At a host that never fails the whole history of a routine happens. -/
theorem trapRoutine_endsBecause (v : BitVec 8) (fa : Word) (s : State) :
    EndsBecause v fa (outBytes (routineEvents (trapDecode v) (s.setOutRoom none))) s (trapRoutine v fa s) := by
  cases hv : vectorInService v with
  | false =>
    rw [trapRoutine, (trapDecode_eq_invalid_iff v).2 hv]
    exact .invalidTrap hv ⟨rfl, rfl, rfl⟩
  | true =>
    unfold routineEvents
    simp only [State.setOutRoom_outRoom, performed_none]
    obtain rfl | rfl | rfl | rfl | rfl | rfl := eq_of_vectorInService v hv
    · exact getcRoutine_endsBecause fa s
    · exact outRoutine_endsBecause fa s
    · exact putsRoutine_endsBecause fa s
    · exact inpRoutine_endsBecause fa s
    · exact putspRoutine_endsBecause fa s
    · exact haltRoutine_endsBecause fa s

theorem resume_endsBecause (p : Pending) (s : State) :
    EndsBecause p.routine.vector p.addr (outBytes (resumeEvents p (s.setOutRoom none))) s (resume p s) := by
  unfold resume resumeEvents
  simp only [State.setOutRoom_outRoom, performed_none]
  cases p.routine with
  | getc => exact getcRoutine_endsBecause p.addr s
  | inp => exact inpWait_endsBecause p.addr s
  | puts => exact putsRoutine_endsBecause p.addr s
  | putsp => exact putspRoutine_endsBecause p.addr s

/-! ### Why a step ends as it does -/

/-- The bytes that a step outputs at a host that never fails. -/
def State.bytesIfAccepted (s : State) : List Byte := outBytes (stepEvents (s.setOutRoom none))

theorem State.outputFails_iff (s : State) : s.outputFails ↔ s.outAccepts s.bytesIfAccepted.length = false := by
  refine ⟨fun ⟨k, hr, hk⟩ => ?_, State.room_of_not_accepts⟩
  rw [State.outAccepts_some hr]
  exact decide_eq_false (Nat.not_le_of_lt hk)

/-- The step fetches a TRAP with vector `v` at `fa`. -/
structure State.FetchesTrap (s : State) (v : BitVec 8) (fa : Word) : Prop where
  pending : s.pending = none
  addr : fa = s.pc
  opcode : irOp s.fetch = 0xF#4
  vector : v = irVect8 s.fetch

/-- The step runs the routine of vector `v` for the TRAP at `fa`: that TRAP is just fetched, or unfinished and able
to go on. -/
def State.RunsRoutine (s : State) (v : BitVec 8) (fa : Word) : Prop :=
  s.FetchesTrap v fa ∨ ∃ p, s.pending = some p ∧ p.awaits s = false ∧ fa = p.addr ∧ v = p.routine.vector

section
variable {s : State} {v : BitVec 8} {fa : Word} {r : Suspended}

/-- A routine that is never left unfinished is run by its own TRAP only. -/
theorem State.RunsRoutine.fetchesTrap (h : s.RunsRoutine v fa) (hv : ∀ r : Suspended, r.vector ≠ v) :
    s.FetchesTrap v fa := by
  obtain hf | ⟨p, -, -, -, hvector⟩ := h
  · exact hf
  · exact absurd hvector.symm (hv p.routine)

theorem State.RunsRoutine.fetchesTrap_or_pending (h : s.RunsRoutine r.vector fa) :
    s.FetchesTrap r.vector fa ∨ s.pending = some ⟨r, fa⟩ := by
  refine h.imp_right ?_
  rintro ⟨⟨q, a⟩, hp, -, rfl, hvector⟩
  rw [hp, Suspended.vector_injective hvector]

/-- A hold that is resumed has its answer (R126). -/
theorem State.RunsRoutine.pending_eq_none_of_no_answer (h : s.RunsRoutine r.vector fa)
    (hhold : r = .getc ∨ r = .inp) (hinput : s.input = []) : s.pending = none := by
  obtain hf | ⟨p, -, hawaits, -, hvector⟩ := h
  · exact hf.pending
  · rw [Suspended.vector_injective hvector] at hhold
    rw [(p.awaits_iff s).2 ⟨hhold, hinput⟩] at hawaits
    cases hawaits

end

/-- From a state with Inv a step serves a TRAP, raises InvalidOpcode, or goes on with nothing left unfinished. -/
theorem step_ends {s t : State} (hs : s.Inv) (h : step s = .next t) :
    (∃ v fa, s.RunsRoutine v fa ∧ t.pc = fa + 1#16 ∧ EndsBecause v fa s.bytesIfAccepted s t) ∨
    (s.pending = none ∧ (irOp s.fetch = 0x8#4 ∨ irOp s.fetch = 0xD#4) ∧
      Raises (.invalidOpcode s.pc (irOp s.fetch) s.fetch) t) ∨
    GoesOn s t := by
  obtain ⟨hr, ⟨p, hp, ha, rfl⟩ | ⟨hp, hexec⟩⟩ := step_cases h
  · refine .inl ⟨_, _, .inr ⟨p, hp, ha, rfl, rfl⟩,
      (resume_serves p s).pc.trans (inRoutine_of_pending hs hp).pc, ?_⟩
    rw [State.bytesIfAccepted, stepEvents_of_pending (s := s.setOutRoom none) hr hp]
    exact resume_endsBecause p s
  · obtain ⟨hop, rfl⟩ | ⟨hop, rfl⟩ | ⟨hrun, herr, hpend⟩ := exec_decode_cases hexec
    · rw [State.fetchAddr_incPc]
      refine .inl ⟨_, _, .inl ⟨hp, rfl, hop, rfl⟩, (trapRoutine_serves _ _ _).pc, ?_⟩
      refine (trapRoutine_endsBecause (irVect8 s.fetch) s.pc s.incPc.trapEntry).of_earlier (s := s)
        (u := s.incPc.trapEntry) rfl rfl rfl rfl ?_
      rw [State.bytesIfAccepted, stepEvents_of_ready (s := s.setOutRoom none) hr hp,
        show (s.setOutRoom none).fetch = s.fetch from rfl, decode_of_trap hop, instrEvents_refineTrap]
      rfl
    · rw [State.fetchAddr_incPc]
      exact .inr (.inl ⟨hp, hop, rfl, rfl, rfl⟩)
    · exact .inr (.inr ⟨hrun, herr, hpend.trans hp⟩)

/-- Settles O54: of the ways a step can end, only a hold leaves a step unfinished, only HALT halts without an error,
and each error is raised in one way. -/
theorem eachEndHasItsCause : Obligations.EachEndHasItsCause := by
  unfold Obligations.EachEndHasItsCause
  intro s t hs hstep
  obtain ⟨hrun, -⟩ := step_cases hstep
  have herr : s.err = none := err_eq_none_of_inv hs hrun
  obtain ⟨v, fa, hruns, hpc, hend⟩ | ⟨hp, hop, hraises⟩ | hgo := step_ends hs hstep
  · cases hend with
    | returns hgo => simp [hgo.run, hrun, hgo.err, herr, hgo.pending]
    | holds r hv hi hz hh =>
      subst hv
      refine ⟨by simp [hh.err, herr], by simp [hh.err, herr], by simp [hh.err, herr], by simp [hh.run, hrun], ?_⟩
      intro p hp
      obtain rfl : ⟨r, fa⟩ = p := by simpa [hh.pending] using hp
      exact ⟨hruns.fetchesTrap_or_pending.imp_left fun hf => ⟨hf.pending, hf.addr, hf.opcode, hf.vector.symm⟩,
        fun hhold => ⟨hruns.pending_eq_none_of_no_answer hhold (hi hhold), hi hhold⟩, hz⟩
    | halts hv _ he hp =>
      have hf := hruns.fetchesTrap fun r => hv ▸ r.vector_ne_halt
      refine ⟨by simp [he, herr], by simp [he, herr], by simp [he, herr], fun _ _ => ?_, by simp [hp]⟩
      exact ⟨hf.pending, hf.opcode, hf.vector.symm.trans hv⟩
    | consoleError hfails hv hr =>
      refine ⟨by simp [hr.err], by simp [hr.err], ?_, by simp [hr.err], by simp [hr.pending]⟩
      intro a v' he
      obtain ⟨rfl, rfl⟩ : fa = a ∧ v = v' := by simpa [hr.err] using he
      rw [ConsoleFails, ← Bool.not_eq_false, ← State.outputFails_iff] at hfails
      refine ⟨hruns.imp (fun hf => ⟨hf.pending, hf.addr, hf.opcode, hf.vector⟩) ?_,
        (vectorInService_eq_true_iff v).1 hv, hpc, hfails⟩
      rintro ⟨p, hp, -, haddr, hvector⟩
      exact ⟨p, hp, haddr, hvector⟩
    | invalidTrap hv hr =>
      have hf := hruns.fetchesTrap fun r h => by simp [← h, r.vector_inService] at hv
      refine ⟨by simp [hr.err], ?_, by simp [hr.err], by simp [hr.err], by simp [hr.pending]⟩
      intro a v' he
      obtain ⟨rfl, rfl⟩ : fa = a ∧ v = v' := by simpa [hr.err] using he
      exact ⟨hf.pending, hf.addr, hf.opcode, hf.vector, (vectorInService_eq_false_iff v).1 hv⟩
  · refine ⟨?_, by simp [hraises.err], by simp [hraises.err], by simp [hraises.err], by simp [hraises.pending]⟩
    intro a op w he
    obtain ⟨rfl, rfl, rfl⟩ : s.pc = a ∧ irOp s.fetch = op ∧ s.fetch = w := by simpa [hraises.err] using he
    exact ⟨hp, rfl, rfl, rfl, hop⟩
  · simp [hgo.run, hrun, hgo.err, herr, hgo.pending]

end Sys2Proof.Machine
end

section
/-! The operate instructions (spec/41_operate.md): the words of their formats (R84 to R86), and the one register
write with its flags that each of them is. -/

namespace Sys2Proof

/-! ### The low six bits of the register mode, whatever ir[4:3] hold (R84) -/

@[simp] theorem irSr2_encode336_anyMiddle (op : Opcode) (f g : BitVec 3) (b : BitVec 1) (x : BitVec 2) (r : Reg) :
    irSr2 (encode336 op f g (b ++ x ++ r.bits)) = r := by
  rw [irSr2, encode336_low _ _ _ _ _ _ (by omega), extractLsb'_append_low _ _ _ _ (by omega),
    BitVec.extractLsb'_eq_self, Reg.ofBits_bits]

@[simp] theorem irImode_encode336_anyMiddle (op : Opcode) (f g h : BitVec 3) (x : BitVec 2) :
    irImode (encode336 op f g (0#1 ++ x ++ h)) = false := by
  rw [irImode_encode336, BitVec.getLsbD_append, BitVec.getLsbD_append]
  rfl

/-! ### A word written field by field is a word of the 3-3-6 format -/

theorem registerWord_eq_encode336 (op : Opcode) (f g h : BitVec 3) (b : BitVec 1) (x : BitVec 2) :
    op.bits ++ f ++ g ++ b ++ x ++ h = encode336 op f g (b ++ x ++ h) := by
  rw [BitVec.append_assoc, BitVec.append_assoc, encode336, BitVec.append_assoc (x₁ := b)]
  rfl

theorem immediateWord_eq_encode336 (op : Opcode) (f g : BitVec 3) (b : BitVec 1) (imm5 : BitVec 5) :
    op.bits ++ f ++ g ++ b ++ imm5 = encode336 op f g (b ++ imm5) := BitVec.append_assoc

/-! ### What the words decode to -/

theorem decode_addWord (dr sr1 sr2 : Reg) (x : BitVec 2) :
    decode (Opcode.add.bits ++ dr.bits ++ sr1.bits ++ 0#1 ++ x ++ sr2.bits) = .add dr sr1 sr2 := by
  rw [registerWord_eq_encode336]
  simp [decode, decodeBase, refine]

theorem decode_andWord (dr sr1 sr2 : Reg) (x : BitVec 2) :
    decode (Opcode.and.bits ++ dr.bits ++ sr1.bits ++ 0#1 ++ x ++ sr2.bits) = .and dr sr1 sr2 := by
  rw [registerWord_eq_encode336]
  simp [decode, decodeBase, refine]

theorem decode_addImmWord (dr sr1 : Reg) (imm5 : BitVec 5) :
    decode (Opcode.add.bits ++ dr.bits ++ sr1.bits ++ 1#1 ++ imm5) = .addImm dr sr1 imm5 := by
  rw [immediateWord_eq_encode336]
  exact decodeOfEncodeIsTheInstruction (.addImm dr sr1 imm5) rfl

theorem decode_andImmWord (dr sr1 : Reg) (imm5 : BitVec 5) :
    decode (Opcode.and.bits ++ dr.bits ++ sr1.bits ++ 1#1 ++ imm5) = .andImm dr sr1 imm5 := by
  rw [immediateWord_eq_encode336]
  exact decodeOfEncodeIsTheInstruction (.andImm dr sr1 imm5) rfl

theorem decode_notWord (dr sr : Reg) (x : BitVec 6) :
    decode (Opcode.not.bits ++ dr.bits ++ sr.bits ++ x) = .not dr sr := by
  change decode (encode336 .not dr.bits sr.bits x) = .not dr sr
  simp [decode, decodeBase, refine]

end Sys2Proof

namespace Sys2Proof.Machine

/-! ### One register write with its flags (R12, R24) -/

theorem State.setRegCC_sameOutside (s : State) (r : Reg) (v : Word) : SameOutside s (s.setRegCC r v) where
  run := State.setRegCC_run s r v
  err := State.setRegCC_err s r v
  mem _ := rfl
  output := State.setRegCC_output s r v
  input := State.setRegCC_input s r v
  outRoom := State.setRegCC_outRoom s r v
  pending := State.setRegCC_pending s r v
  params := State.setRegCC_params s r v

theorem State.setRegCC_writesWithFlags (s : State) (r : Reg) (v : Word) :
    WritesWithFlags r v s (s.setRegCC r v) where
  value := State.reg_setRegCC_same s r v
  flags := State.setRegCC_cond s r v
  others _ h := State.reg_setRegCC_other s v h
  pc := State.setRegCC_pc s r v
  rest := State.setRegCC_sameOutside s r v

/-- Every operate instruction writes the ALU's result, and its operands are read in the state before (R140). -/
theorem operate_writesWithFlags (op : AluOp) (dr : Reg) (a b : Word) (s : State) :
    WritesWithFlags dr (alu op a b) s (operate op dr a b s) :=
  State.setRegCC_writesWithFlags s dr (alu op a b)

/-! ### The statements -/

/-- Settles O11: ADD operates on its two source registers. -/
theorem addRegisterResult : Obligations.AddRegisterResult := by
  unfold Obligations.AddRegisterResult
  exact ⟨decode_addWord, fun dr sr1 sr2 s =>
    ⟨_, rfl, operate_writesWithFlags .add dr (s.reg sr1) (s.reg sr2) s⟩⟩

/-- Settles O12: ADD operates on its source register and the immediate. -/
theorem addImmediateResult : Obligations.AddImmediateResult := by
  unfold Obligations.AddImmediateResult
  exact ⟨decode_addImmWord, fun dr sr1 imm5 s =>
    ⟨_, rfl, operate_writesWithFlags .add dr (s.reg sr1) (sext imm5) s⟩⟩

/-- Settles O13: AND operates on its two source registers. -/
theorem andRegisterResult : Obligations.AndRegisterResult := by
  unfold Obligations.AndRegisterResult
  exact ⟨decode_andWord, fun dr sr1 sr2 s =>
    ⟨_, rfl, operate_writesWithFlags .and dr (s.reg sr1) (s.reg sr2) s⟩⟩

/-- Settles O14: AND operates on its source register and the immediate. -/
theorem andImmediateResult : Obligations.AndImmediateResult := by
  unfold Obligations.AndImmediateResult
  exact ⟨decode_andImmWord, fun dr sr1 imm5 s =>
    ⟨_, rfl, operate_writesWithFlags .and dr (s.reg sr1) (sext imm5) s⟩⟩

/-- Settles O15: NOT operates on its source register alone. -/
theorem notResult : Obligations.NotResult := by
  unfold Obligations.NotResult
  exact ⟨decode_notWord, fun dr sr s => ⟨_, rfl, operate_writesWithFlags .not dr (s.reg sr) 0x0000#16 s⟩⟩

end Sys2Proof.Machine
end

section
/-! The control transfers (spec/42_control.md): the words of their formats (R87 to R90), and the jump, with or without
a link, that each of them is. -/

namespace Sys2Proof

/-! ### What the words decode to -/

theorem decode_brWord (nzp : BitVec 3) (off9 : BitVec 9) :
    decode (Opcode.br.bits ++ nzp ++ off9) = .br nzp off9 :=
  decodeOfEncodeIsTheInstruction (.br nzp off9) rfl

theorem decodeBase_jmpWord (x : BitVec 3) (base : Reg) (y : BitVec 6) :
    decodeBase (Opcode.jmp.bits ++ x ++ base.bits ++ y) = .jmp base := by
  change decodeBase (encode336 .jmp x base.bits y) = .jmp base
  simp [decodeBase]

theorem decode_retWord (x : BitVec 3) (y : BitVec 6) :
    decode (Opcode.jmp.bits ++ x ++ Reg.r7.bits ++ y) = .ret :=
  decode_of_decodeBase_jmp (decodeBase_jmpWord x .r7 y)

theorem decode_jsrWord (off11 : BitVec 11) : decode (Opcode.jsr.bits ++ 1#1 ++ off11) = .jsr off11 :=
  decodeOfEncodeIsTheInstruction (.jsr off11) rfl

/-- The mode bit and the two ignored bits are the first 3-bit field of the 3-3-6 format (R90). -/
theorem jsrrWord_eq_encode336 (x : BitVec 2) (g : BitVec 3) (y : BitVec 6) :
    Opcode.jsr.bits ++ 0#1 ++ x ++ g ++ y = encode336 .jsr (0#1 ++ x) g y := by
  rw [BitVec.append_assoc (x₂ := 0#1) (x₃ := x), encode336]
  rfl

theorem decode_jsrrWord (x : BitVec 2) (base : Reg) (y : BitVec 6) :
    decode (Opcode.jsr.bits ++ 0#1 ++ x ++ base.bits ++ y) = .jsrr base := by
  have hmode : irJmode (encode336 .jsr (0#1 ++ x) base.bits y) = false := by
    rw [irJmode_encode336, BitVec.getLsbD_append]
    rfl
  rw [jsrrWord_eq_encode336, decode, decodeBase_of_jsrr (encode336_irOp ..) hmode, irSr1_encode336]
  rfl

end Sys2Proof

namespace Sys2Proof.Machine

/-! ### A jump, and a call (R12, R150 to R154) -/

/-- The registers, PC and COND are all that `SameOutside` leaves open. -/
theorem State.sameOutside_of_update (s : State) (regs : Regs) (pc : Word) (cond : Cond) :
    SameOutside s { s with regs := regs, pc := pc, cond := cond } where
  run := rfl
  err := rfl
  mem _ := rfl
  output := rfl
  input := rfl
  outRoom := rfl
  pending := rfl
  params := rfl

theorem State.setPc_jumpsTo (s : State) (a : Word) : JumpsTo a s (s.setPc a) where
  target := State.setPc_pc s a
  regs := State.reg_congr (State.setPc_regs s a)
  cond := State.setPc_cond s a
  rest := State.sameOutside_of_update s s.regs a s.cond

theorem State.reg_link_setPc (s : State) (a : Word) (r : Reg) :
    (s.link.setPc a).reg r = if r = .r7 then s.pc else s.reg r :=
  (State.reg_congr (State.setPc_regs s.link a) r).trans (State.reg_link s r)

theorem State.link_setPc_callsTo (s : State) (a : Word) : CallsTo a s (s.link.setPc a) where
  target := State.setPc_pc s.link a
  link := State.reg_link_setPc s a .r7
  regs r h := (State.reg_link_setPc s a r).trans (if_neg h)
  cond := State.link_cond s
  rest := State.sameOutside_of_update s s.link.regs a s.cond

/-! ### Where BR and JSRR go -/

theorem condTaken_iff (nzp : BitVec 3) (c : Cond) : condTaken nzp c = true ↔ nzp &&& c.bits ≠ 0b000#3 :=
  bne_iff_ne

/-- A branch not taken is a jump to the incremented PC (R150). -/
theorem exec_br (nzp : BitVec 3) (off9 : BitVec 9) (s : State) :
    exec (.br nzp off9) s =
      .next (s.setPc (if nzp &&& s.cond.bits ≠ 0b000#3 then s.pc + sext off9 else s.pc)) := by
  change execBr nzp off9 s = _
  rw [execBr]
  by_cases h : nzp &&& s.cond.bits ≠ 0b000#3
  · rw [if_pos h, if_pos ((condTaken_iff nzp s.cond).2 h)]
    rfl
  · rw [if_neg h, if_neg (mt (condTaken_iff nzp s.cond).1 h)]
    rfl

/-- The order of link and read matters for BaseR = R7 alone (R154, D3). -/
theorem State.jsrrTarget_eq (s : State) (base : Reg) :
    s.jsrrTarget base =
      if s.params.jsrrBaseReadBeforeLink = false ∧ base = .r7 then s.pc else s.reg base := by
  rw [State.jsrrTarget, State.reg_link]
  cases s.params.jsrrBaseReadBeforeLink with
  | true => simp
  | false => simp

/-! ### The statements -/

/-- Settles O16: BR is a jump, to the target where the condition holds and to the incremented PC otherwise. -/
theorem branchResult : Obligations.BranchResult := by
  unfold Obligations.BranchResult
  exact ⟨decode_brWord, fun nzp off9 s => ⟨_, exec_br nzp off9 s, State.setPc_jumpsTo s _⟩⟩

/-- Settles O17: JMP is a jump to its base register. -/
theorem jumpResult : Obligations.JumpResult := by
  unfold Obligations.JumpResult
  exact ⟨decodeBase_jmpWord, fun base s => ⟨_, rfl, State.setPc_jumpsTo s (s.reg base)⟩⟩

/-- Settles O18: RET is a jump to R7. -/
theorem returnResult : Obligations.ReturnResult := by
  unfold Obligations.ReturnResult
  exact ⟨decode_retWord, fun s => ⟨_, rfl, State.setPc_jumpsTo s (s.reg .r7)⟩⟩

/-- Settles O19: JSR is a call, and its target is relative to the same incremented PC that it links. -/
theorem callResult : Obligations.CallResult := by
  unfold Obligations.CallResult
  exact ⟨decode_jsrWord, fun off11 s => ⟨_, rfl, State.link_setPc_callsTo s (s.pc + sext off11)⟩⟩

/-- Settles O20: JSRR is a call, and its target is read before or after the link as the parameter says. -/
theorem callThroughRegisterResult : Obligations.CallThroughRegisterResult := by
  unfold Obligations.CallThroughRegisterResult
  refine ⟨decode_jsrrWord, fun base s => ⟨_, rfl, ?_⟩⟩
  rw [← State.jsrrTarget_eq]
  exact State.link_setPc_callsTo s (s.jsrrTarget base)

end Sys2Proof.Machine
end

section
/-! Loads, LEA and stores (spec/43_load_store.md): their words are the encoder's own (R91, R92), a load or LEA is one
register write with its flags, and a store is one memory write. -/

namespace Sys2Proof.Machine

/-! ### One memory write (R12, R53) -/

theorem State.store_storesOneWord {s : State} (hmem : s.mem.wf) (a v : Word) :
    StoresOneWord a v s (s.store a v) where
  stored := State.load_store_same hmem a v
  otherCells _ h := State.load_store_other s v h
  regs := State.reg_congr (State.store_regs s a v)
  cond := State.store_cond s a v
  pc := State.store_pc s a v
  run := State.store_run s a v
  err := State.store_err s a v
  output := State.store_output s a v
  input := State.store_input s a v
  outRoom := State.store_outRoom s a v
  pending := State.store_pending s a v
  params := State.store_params s a v

/-! ### The statements -/

/-- Settles O21: LD writes the word at its PC-relative address. -/
theorem loadResult : Obligations.LoadResult := by
  unfold Obligations.LoadResult
  exact ⟨fun dr off9 => decodeOfEncodeIsTheInstruction (.ld dr off9) rfl,
    fun dr off9 s => ⟨_, rfl, State.setRegCC_writesWithFlags s dr (s.load (s.pc + sext off9))⟩⟩

/-- Settles O22: LDI writes the word at the pointer that its PC-relative cell holds. -/
theorem loadIndirectResult : Obligations.LoadIndirectResult := by
  unfold Obligations.LoadIndirectResult
  exact ⟨fun dr off9 => decodeOfEncodeIsTheInstruction (.ldi dr off9) rfl,
    fun dr off9 s => ⟨_, rfl, State.setRegCC_writesWithFlags s dr (s.load (s.load (s.pc + sext off9)))⟩⟩

/-- Settles O23: LDR writes the word at base plus offset, and its base is read in the state before the write. -/
theorem loadBaseOffsetResult : Obligations.LoadBaseOffsetResult := by
  unfold Obligations.LoadBaseOffsetResult
  exact ⟨fun dr base off6 => decodeOfEncodeIsTheInstruction (.ldr dr base off6) rfl,
    fun dr base off6 s => ⟨_, rfl, State.setRegCC_writesWithFlags s dr (s.load (s.reg base + sext off6))⟩⟩

/-- Settles O24: LEA writes its PC-relative address itself. -/
theorem loadEffectiveAddressResult : Obligations.LoadEffectiveAddressResult := by
  unfold Obligations.LoadEffectiveAddressResult
  exact ⟨fun dr off9 => decodeOfEncodeIsTheInstruction (.lea dr off9) rfl,
    fun dr off9 s => ⟨_, rfl, State.setRegCC_writesWithFlags s dr (s.pc + sext off9)⟩⟩

/-- Settles O25: ST stores its source register at its PC-relative address. -/
theorem storeResult : Obligations.StoreResult := by
  unfold Obligations.StoreResult
  exact ⟨fun sr off9 => decodeOfEncodeIsTheInstruction (.st sr off9) rfl,
    fun sr off9 s hmem => ⟨_, rfl, State.store_storesOneWord hmem (s.pc + sext off9) (s.reg sr)⟩⟩

/-- Settles O26: STI stores at the pointer that its PC-relative cell holds in the state before the write. -/
theorem storeIndirectResult : Obligations.StoreIndirectResult := by
  unfold Obligations.StoreIndirectResult
  exact ⟨fun sr off9 => decodeOfEncodeIsTheInstruction (.sti sr off9) rfl,
    fun sr off9 s hmem => ⟨_, rfl, State.store_storesOneWord hmem (s.load (s.pc + sext off9)) (s.reg sr)⟩⟩

/-- Settles O27: STR stores its source register at base plus offset. -/
theorem storeBaseOffsetResult : Obligations.StoreBaseOffsetResult := by
  unfold Obligations.StoreBaseOffsetResult
  exact ⟨fun sr base off6 => decodeOfEncodeIsTheInstruction (.str sr base off6) rfl,
    fun sr base off6 s hmem =>
      ⟨_, rfl, State.store_storesOneWord hmem (s.reg base + sext off6) (s.reg sr)⟩⟩

end Sys2Proof.Machine
end

section
/-! TRAP and its service routines (spec/44_trap.md): the words of its format (R93), a TRAP from its entry through its
use of the console to its end, and the strings that PUTS and PUTSP put out. -/

namespace Sys2Proof

/-! ### What the words decode to (R93, R203) -/

theorem decode_trapWord (x : BitVec 4) (v : BitVec 8) : decode (0b1111#4 ++ x ++ v) = refineTrap v := by
  have hop : irOp (0b1111#4 ++ x ++ v) = 0xF#4 := by
    rw [irOp, extractLsb'_append_high _ _ _ _ (by omega), extractLsb'_append_high _ _ _ _ (by omega),
      BitVec.extractLsb'_eq_self]
  have hvector : irVect8 (0b1111#4 ++ x ++ v) = v := by
    rw [irVect8, extractLsb'_append_low _ _ _ _ (by omega), BitVec.extractLsb'_eq_self]
  rw [decode_of_decodeBase_trap (decodeBase_of_trap hop), hvector]

theorem refineTrap_of_invalid {v : BitVec 8} (h : vectorInService v = false) :
    refineTrap v = .trapInvalidVector v := by
  simp [refineTrap, (trapDecode_eq_invalid_iff v).2 h]

end Sys2Proof

namespace Sys2Proof.Machine

/-! ### The dispatch (R203, R204) -/

/-- Settles O7, vector by vector. -/
theorem trapVectorDecoder : Obligations.TrapVectorDecoder := by
  unfold Obligations.TrapVectorDecoder
  decide

/-- Every row of TRAP runs its vector's routine, after the link. -/
theorem exec_eq_trapRoutine {i : Instr} {v : BitVec 8} (h : refineTrap v = i) (s : State) :
    exec i s = .next (trapRoutine v s.fetchAddr s.trapEntry) :=
  h ▸ exec_refineTrap v s

/-- A routine that reads no character leaves the flags, and of the registers only the link is new (R259). -/
theorem trapRoutine_r0_cond {v : BitVec 8} (fa : Word) (s : State) (hgetc : v ≠ 0x20#8) (hinp : v ≠ 0x23#8) :
    (trapRoutine v fa s.trapEntry).reg .r0 = s.reg .r0 ∧ (trapRoutine v fa s.trapEntry).cond = s.cond := by
  obtain ⟨hregs, hcond⟩ | ⟨hv, -⟩ := (trapRoutine_serves v fa s.trapEntry).regs
  · exact ⟨State.reg_congr hregs .r0, hcond⟩
  · exact absurd hv (not_or.2 ⟨hgetc, hinp⟩)

/-- Settles O28: the vector's routine runs after the link, leaves PC and memory, and is the one that the vector's own
row runs. -/
theorem trapLinksAndDispatches : Obligations.TrapLinksAndDispatches := by
  unfold Obligations.TrapLinksAndDispatches
  refine ⟨decode_trapWord, fun v s => ⟨trapRoutine v s.fetchAddr s.trapEntry, rfl, ?_⟩⟩
  have hserves := trapRoutine_serves v s.fetchAddr s.trapEntry
  have hlink : (trapRoutine v s.fetchAddr s.trapEntry).reg .r7 = s.pc :=
    (hserves.reg_of_ne_r0 (by decide)).trans (s.reg_trapEntry .r7)
  have hothers (q : Reg) (h0 : q ≠ .r0) (h7 : q ≠ .r7) :
      (trapRoutine v s.fetchAddr s.trapEntry).reg q = s.reg q :=
    trapRoutine_reg_of_not_mem (by simp [mem_writtenRegs_trap, h0, h7])
  obtain ⟨hparams, -⟩ := trapRoutine_takesAtMostOneAnswer v s.fetchAddr s.trapEntry
  refine ⟨hlink, hserves.pc, hothers, trapRoutine_r0_cond s.fetchAddr s, State.load_congr hserves.mem, hparams,
    ?_, ?_, ?_, ?_, ?_, ?_, ?_⟩ <;>
  exact fun hd => exec_eq_trapRoutine (by simp [refineTrap, hd]) s

/-! ### The console port (R201) -/

theorem State.outAccepts_eq_false {s : State} {k n : Nat} (hr : s.outRoom = some k) (hk : k < n) :
    s.outAccepts n = false := by
  rw [State.outAccepts_some hr, decide_eq_false (Nat.not_le_of_lt hk)]

theorem State.outAccepts_one {s : State} (h : s.outRoom ≠ some 0) : s.outAccepts 1 = true := by
  cases hr : s.outRoom with
  | none => exact State.outAccepts_none hr 1
  | some k =>
    have hk : 1 ≤ k := Nat.one_le_iff_ne_zero.2 fun hzero => h (hzero ▸ hr)
    rw [State.outAccepts_some hr, decide_eq_true hk]

/-- A host that accepts more accepts less. -/
theorem State.outAccepts_of_le {s : State} {m n : Nat} (h : s.outAccepts n = true) (hmn : m ≤ n) :
    s.outAccepts m = true := by
  unfold State.outAccepts at *
  split at h
  · rfl
  · exact decide_eq_true (hmn.trans (of_decide_eq_true h))

/-! ### A TRAP from its entry to its end (R204, R259, R260) -/

theorem LinksOnly.of_same {s u t : State} (h : LinksOnly s u) (hregs : t.regs = u.regs) (hcond : t.cond = u.cond)
    (hpc : t.pc = u.pc) (hmem : t.mem = u.mem) (hparams : t.params = u.params) : LinksOnly s t where
  link := (State.reg_congr hregs .r7).trans h.link
  regs q hq := (State.reg_congr hregs q).trans (h.regs q hq)
  cond := hcond.trans h.cond
  pc := hpc.trans h.pc
  mem a := (State.load_congr hmem a).trans (h.mem a)
  params := hparams.trans h.params

/-- The TRAP that `exec` runs from `s` has come to `u`, not yet to its end: the link is written, and since then only
the console ports, which hold `output`, `input` and `room`, have changed. -/
structure Entered (output : List Byte) (input : List ConsoleAnswer) (room : Option Nat) (s u : State) : Prop where
  links : LinksOnly s u
  run : u.run = s.run
  err : u.err = s.err
  console : Console output input room u

theorem State.trapEntry_linksOnly (s : State) : LinksOnly s s.trapEntry where
  link := s.reg_trapEntry .r7
  regs q hq := (s.reg_trapEntry q).trans (if_neg hq)
  cond := rfl
  pc := rfl
  mem _ := rfl
  params := rfl

theorem State.trapEntry_entered (s : State) : Entered s.output s.input s.outRoom s s.trapEntry :=
  ⟨s.trapEntry_linksOnly, rfl, rfl, rfl, rfl, rfl⟩

section
variable {output : List Byte} {input : List ConsoleAnswer} {room : Option Nat} {s u : State}

theorem LinksOnly.emit (h : LinksOnly s u) (bs : List Byte) : LinksOnly s (u.emit bs) :=
  h.of_same (u.emit_regs bs) (u.emit_cond bs) (u.emit_pc bs) (u.emit_mem bs) (u.emit_params bs)

/-- The host accepts all of `bs` (R201). -/
theorem Entered.emit {bs : List Byte} (h : Entered output input room s u)
    (ha : u.outAccepts bs.length = true) :
    Entered (output ++ bs) input (room.map (· - bs.length)) s (u.emit bs) where
  links := h.links.emit bs
  run := (u.emit_run bs).trans h.run
  err := (u.emit_err bs).trans h.err
  console :=
    { output := by rw [State.emit_output_of_accepts u bs ha, h.console.output]
      input := (u.emit_input bs).trans h.console.input
      outRoom := by rw [State.emit_outRoom, h.console.outRoom] }

/-- The host fails after `k` bytes of `bs` (R201). -/
theorem Entered.emit_fails {bs : List Byte} {k : Nat} (h : Entered output input room s u)
    (hr : room = some k) (hk : k < bs.length) :
    Entered (output ++ bs.take k) input (some 0) s (u.emit bs) where
  links := h.links.emit bs
  run := (u.emit_run bs).trans h.run
  err := (u.emit_err bs).trans h.err
  console :=
    { output := by rw [State.emit_output_of_room u bs k (h.console.outRoom.trans hr), h.console.output]
      input := (u.emit_input bs).trans h.console.input
      outRoom :=
        State.emit_outRoom_of_not_accepts (State.outAccepts_eq_false (h.console.outRoom.trans hr) hk) }

/-- The host fails at the one byte `b`. -/
theorem Entered.emit_byte_fails (h : Entered output input room s u) (hr : room = some 0) (b : Byte) :
    Entered output input (some 0) s (u.emit [b]) := by
  simpa using h.emit_fails (bs := [b]) hr Nat.one_pos

theorem Entered.takeInput {a : ConsoleAnswer} (h : Entered output (a :: input) room s u) :
    Entered output input room s u.takeInput where
  links := h.links.of_same rfl rfl rfl rfl rfl
  run := h.run
  err := h.err
  console := ⟨h.console.output, congrArg List.tail h.console.input, h.console.outRoom⟩

theorem Entered.returns (h : Entered output input room s u) :
    LinksOnly s u.trapReturn ∧ GoesOn s u.trapReturn ∧ Console output input room u.trapReturn :=
  ⟨h.links.of_same rfl rfl rfl rfl rfl, ⟨h.run, h.err, rfl⟩,
    h.console.output, h.console.input, h.console.outRoom⟩

theorem Entered.holds (h : Entered output input room s u) (p : Pending) :
    LinksOnly s (u.suspend p) ∧ Holds p s (u.suspend p) ∧ Console output input room (u.suspend p) :=
  ⟨h.links.of_same rfl rfl rfl rfl rfl, ⟨h.run, h.err, rfl⟩,
    h.console.output, h.console.input, h.console.outRoom⟩

theorem Entered.raises (h : Entered output input room s u) (e : ErrorRecord) :
    LinksOnly s (u.raise e) ∧ Raises e (u.raise e) ∧ Console output input room (u.raise e) :=
  ⟨h.links.of_same rfl rfl rfl rfl rfl, ⟨rfl, rfl, rfl⟩, h.console.output, h.console.input, h.console.outRoom⟩

theorem Entered.halts (h : Entered output input room s u) :
    LinksOnly s u.halt ∧ u.halt.run = .halted ∧ u.halt.err = s.err ∧ u.halt.pending = none ∧
      Console output input room u.halt :=
  ⟨h.links.of_same rfl rfl rfl rfl rfl, rfl, h.err, rfl, h.console.output, h.console.input, h.console.outRoom⟩

/-- The character `b` goes to R0 with its flags; the link in R7 stays. -/
theorem Entered.reads (h : Entered output input room s u) (b : Byte) :
    LinksAndReads b s (u.trapReturn.setRegCC .r0 (zext b)) ∧
      GoesOn s (u.trapReturn.setRegCC .r0 (zext b)) ∧
      Console output input room (u.trapReturn.setRegCC .r0 (zext b)) := by
  have hother (q : Reg) (hq : q ≠ .r0) : (u.trapReturn.setRegCC .r0 (zext b)).reg q = u.reg q :=
    State.reg_setRegCC_other u.trapReturn (zext b) hq
  refine ⟨?_, ⟨h.run, h.err, rfl⟩, h.console.output, h.console.input, h.console.outRoom⟩
  exact
    { link := (hother .r7 (by decide)).trans h.links.link
      value := State.reg_setRegCC_same u.trapReturn .r0 (zext b)
      flags := rfl
      regs := fun q h0 h7 => (hother q h0).trans (h.links.regs q h7)
      pc := h.links.pc
      mem := h.links.mem
      params := h.links.params }

end

/-! ### What each TRAP comes to, case by case (R205, R206, R208, R210) -/

section
variable {fa : Word} {s : State} {b : Byte} {rest : List ConsoleAnswer}

theorem exec_getc_of_byte (h : s.input = .byte b :: rest) :
    exec .getc s = .next (s.trapEntry.takeInput.trapReturn.setRegCC .r0 (zext b)) :=
  congrArg Host.Outcome.next (by simp [getcRoutine, h])

theorem exec_getc_of_failure (h : s.input = .failure :: rest) :
    exec .getc s = .next (s.trapEntry.takeInput.consoleError s.fetchAddr 0x20#8) :=
  congrArg Host.Outcome.next (by simp [getcRoutine, h])

theorem exec_getc_of_no_answer (h : s.input = []) :
    exec .getc s = .next (s.trapEntry.suspend ⟨.getc, s.fetchAddr⟩) :=
  congrArg Host.Outcome.next (by simp [getcRoutine, h])

theorem exec_out_of_accepts (h : s.outAccepts 1 = true) :
    exec .out s = .next (s.trapEntry.emit [lowByte (s.reg .r0)]).trapReturn :=
  congrArg Host.Outcome.next (if_pos h)

theorem exec_out_of_fails (h : s.outAccepts 1 = false) :
    exec .out s = .next ((s.trapEntry.emit [lowByte (s.reg .r0)]).consoleError s.fetchAddr 0x21#8) :=
  congrArg Host.Outcome.next (if_neg (Bool.eq_false_iff.1 h))

theorem exec_halt_of_accepts (h : s.outAccepts s.params.haltNotice.length = true) :
    exec .halt s = .next (s.trapEntry.emit s.params.haltNotice).halt :=
  congrArg Host.Outcome.next (if_pos h)

theorem exec_halt_of_fails (h : s.outAccepts s.params.haltNotice.length = false) :
    exec .halt s = .next ((s.trapEntry.emit s.params.haltNotice).consoleError s.fetchAddr 0x25#8) :=
  congrArg Host.Outcome.next (if_neg (Bool.eq_false_iff.1 h))

/-- IN comes to its wait when the host accepts the prompt. -/
theorem exec_inp_of_accepts (h : s.outAccepts s.params.inPrompt.length = true) :
    exec .inp s = .next (inpWait s.fetchAddr (s.trapEntry.emit s.params.inPrompt)) :=
  congrArg Host.Outcome.next (if_pos h)

theorem exec_inp_of_fails (h : s.outAccepts s.params.inPrompt.length = false) :
    exec .inp s = .next ((s.trapEntry.emit s.params.inPrompt).consoleError s.fetchAddr 0x23#8) :=
  congrArg Host.Outcome.next (if_neg (Bool.eq_false_iff.1 h))

theorem inpWait_of_byte (h : s.input = .byte b :: rest) (ha : s.outAccepts 1 = true) :
    inpWait fa s = (s.takeInput.emit [b]).trapReturn.setRegCC .r0 (zext b) := by
  simp [inpWait, h, ha]

theorem inpWait_of_echo_fails (h : s.input = .byte b :: rest) (ha : s.outAccepts 1 = false) :
    inpWait fa s = (s.takeInput.emit [b]).consoleError fa 0x23#8 := by
  simp [inpWait, h, ha]

theorem inpWait_of_failure (h : s.input = .failure :: rest) :
    inpWait fa s = s.takeInput.consoleError fa 0x23#8 := by
  simp [inpWait, h]

theorem inpWait_of_no_answer (h : s.input = []) : inpWait fa s = s.suspend ⟨.inp, fa⟩ := by
  simp [inpWait, h]

end

/-! ### GETC, OUT, HALT and the invalid vectors -/

/-- Settles O29, by the host's answer. -/
theorem getcResult : Obligations.GetcResult := by
  unfold Obligations.GetcResult
  refine ⟨fun x => decode_trapWord x 0x20#8, fun fa s hpc => ?_⟩
  obtain rfl := State.fetchAddr_eq hpc
  have hentered := s.trapEntry_entered
  refine ⟨fun b rest hinput => ?_, fun rest hinput => ?_, fun hinput => ?_⟩ <;> rw [hinput] at hentered
  · exact ⟨_, exec_getc_of_byte hinput, hentered.takeInput.reads b⟩
  · exact ⟨_, exec_getc_of_failure hinput, hentered.takeInput.raises _⟩
  · exact ⟨_, exec_getc_of_no_answer hinput, hentered.holds _⟩

/-- Settles O30: the host accepts the one byte, or fails at it. -/
theorem outResult : Obligations.OutResult := by
  unfold Obligations.OutResult
  refine ⟨fun x => decode_trapWord x 0x21#8, fun fa s hpc => ?_⟩
  obtain rfl := State.fetchAddr_eq hpc
  have hentered := s.trapEntry_entered
  refine ⟨fun hroom => ?_, fun hroom => ?_⟩
  · have ha := State.outAccepts_one hroom
    exact ⟨_, exec_out_of_accepts ha, (hentered.emit (bs := [lowByte (s.reg .r0)]) ha).returns⟩
  · exact ⟨_, exec_out_of_fails (State.outAccepts_eq_false hroom Nat.one_pos),
      (hentered.emit_byte_fails hroom _).raises _⟩

/-- Settles O36: the record is raised right after the link. -/
theorem invalidVectorResult : Obligations.InvalidVectorResult := by
  unfold Obligations.InvalidVectorResult
  refine ⟨fun x v hv => ?_, fun v fa s hpc => ?_⟩
  · rw [decode_trapWord, refineTrap_of_invalid ((vectorInService_eq_false_iff v).2 hv)]
  · obtain rfl := State.fetchAddr_eq hpc
    exact ⟨_, rfl, s.trapEntry_entered.raises _⟩

/-- A running machine that ends HALTED without an error has run HALT's routine. -/
theorem EndsBecause.eq_halt {v : BitVec 8} {fa : Word} {bytes : List Byte} {s t : State}
    (h : EndsBecause v fa bytes s t) (hs : s.run = .running) (ht : t.run = .halted) (herr : t.err = none) :
    v = 0x25#8 := by
  cases h with
  | returns hg => simp [hg.run, hs] at ht
  | holds r _ _ _ hh => simp [hh.run, hs] at ht
  | halts hv _ _ _ => exact hv
  | consoleError _ _ hr => simp [hr.err] at herr
  | invalidTrap _ hr => simp [hr.err] at herr

/-- Of the instructions only HALT, under either of its rows, ends a run without an error. -/
theorem exec_eq_halt {i : Instr} {s t : State} (hs : s.run = .running) (h : exec i s = .next t)
    (ht : t.run = .halted) (herr : t.err = none) : i = .halt ∨ i = .trap 0x25#8 := by
  have heq (v : BitVec 8) (hv : t = trapRoutine v s.fetchAddr s.trapEntry) : v = 0x25#8 :=
    (hv ▸ trapRoutine_endsBecause v s.fetchAddr s.trapEntry).eq_halt hs ht herr
  cases i with
  | halt => exact .inl rfl
  | trap v =>
    cases h
    exact .inr (congrArg _ (heq v rfl))
  | getc => cases h; exact absurd (heq 0x20#8 rfl) (by decide)
  | out => cases h; exact absurd (heq 0x21#8 rfl) (by decide)
  | puts => cases h; exact absurd (heq 0x22#8 rfl) (by decide)
  | inp => cases h; exact absurd (heq 0x23#8 rfl) (by decide)
  | putsp => cases h; exact absurd (heq 0x24#8 rfl) (by decide)
  | trapInvalidVector | rti | res => cases h; cases herr
  | br nzp off9 =>
    rw [exec_br] at h
    cases h
    cases hs.symm.trans ht
  | _ => cases h; cases hs.symm.trans ht

/-- Settles O35: the notice is accepted or fails; and of the ends of a TRAP only HALT's is without an error. -/
theorem haltResult : Obligations.HaltResult := by
  unfold Obligations.HaltResult
  refine ⟨fun x => decode_trapWord x 0x25#8, fun fa s hpc => ?_⟩
  obtain rfl := State.fetchAddr_eq hpc
  have hentered := s.trapEntry_entered
  refine ⟨fun ha => ?_, fun k hroom hk => ?_, fun i t => exec_eq_halt, fun p hs hhalted herr => ?_⟩
  · exact ⟨_, exec_halt_of_accepts ha, (hentered.emit ha).halts⟩
  · exact ⟨_, exec_halt_of_fails (State.outAccepts_eq_false hroom hk),
      (hentered.emit_fails hroom hk).raises _⟩
  · exact p.routine.vector_ne_halt ((resume_endsBecause p s).eq_halt hs hhalted herr)

/-! ### IN -/

/-- Settles O34: the prompt fails, or the wait after it takes the host's answer. -/
theorem inResult : Obligations.InResult := by
  unfold Obligations.InResult
  refine ⟨fun x => decode_trapWord x 0x23#8, fun fa s hpc => ?_⟩
  obtain rfl := State.fetchAddr_eq hpc
  have hentered := s.trapEntry_entered
  refine ⟨fun b rest hinput ha => ?_, fun rest hinput ha => ?_, fun hinput ha => ?_,
    fun b rest hinput hroom => ?_, fun k hroom hk => ?_⟩
  · have hprompt := State.outAccepts_of_le ha (Nat.le_succ _)
    have hecho : (s.trapEntry.emit s.params.inPrompt).outAccepts 1 = true :=
      (State.outAccepts_emit (s := s.trapEntry) hprompt 1).trans ha
    rw [hinput] at hentered
    have hwait := hentered.emit hprompt
    have hread := (hwait.takeInput.emit (bs := [b]) hecho).reads b
    rw [Option.map_map] at hread
    rw [exec_inp_of_accepts hprompt, inpWait_of_byte hwait.console.input hecho]
    exact ⟨_, rfl, hread⟩
  · rw [hinput] at hentered
    have hwait := hentered.emit ha
    rw [exec_inp_of_accepts ha, inpWait_of_failure hwait.console.input]
    exact ⟨_, rfl, hwait.takeInput.raises _⟩
  · rw [hinput] at hentered
    have hwait := hentered.emit ha
    rw [exec_inp_of_accepts ha, inpWait_of_no_answer hwait.console.input]
    exact ⟨_, rfl, hwait.holds _⟩
  · have ha : s.outAccepts s.params.inPrompt.length = true := by simp [State.outAccepts_some hroom]
    have hnone : s.outRoom.map (· - s.params.inPrompt.length) = some 0 := by simp [hroom]
    rw [hinput] at hentered
    have hwait := hentered.emit ha
    have hecho : (s.trapEntry.emit s.params.inPrompt).outAccepts 1 = false :=
      State.outAccepts_eq_false (hwait.console.outRoom.trans hnone) Nat.one_pos
    rw [exec_inp_of_accepts ha, inpWait_of_echo_fails hwait.console.input hecho]
    exact ⟨_, rfl, (hwait.takeInput.emit_byte_fails hnone b).raises _⟩
  · exact ⟨_, exec_inp_of_fails (State.outAccepts_eq_false hroom hk),
      (hentered.emit_fails hroom hk).raises _⟩

end Sys2Proof.Machine
end

section
/-! PUTS and PUTSP (spec/44_trap.md R207, R209): the bytes of a lap are the text that the rules describe, and the
routine puts out that text up to its end, up to the first failure, or, where memory holds no zero cell, lap by lap. -/

namespace Sys2Proof.Machine

/-! ### The text of a run of cells -/

/-- The bytes that a string routine puts out for the `n` cells from `a` on; `cell` is what it does with one. -/
def cellsText (cell : Word → List Event) (a : Word) (n : Nat) : List Byte :=
  (List.range n).flatMap fun k => outBytes (cell (a + BitVec.ofNat 16 k))

theorem State.cellsText_putsCell (s : State) (a : Word) (n : Nat) :
    cellsText (putsCell s.mem) a n = s.putsText a n :=
  (List.map_eq_flatMap ..).symm

theorem State.outBytes_putspCell (s : State) (a : Word) :
    outBytes (putspCell s.params.putspEmitZeroHighNonfinal s.mem a) = s.packedPair a := by
  unfold putspCell State.packedPair
  by_cases hhigh : highByte (s.mem.read a) = 0x00#8
  · cases s.params.putspEmitZeroHighNonfinal with
    | false => simp [State.load, hhigh, outBytes]
    | true =>
      by_cases hnext : s.mem.read (a + 1#16) = 0x0000#16 <;> simp [State.load, hhigh, hnext, outBytes]
  · simp [State.load, hhigh, outBytes]

theorem State.cellsText_putspCell (s : State) (a : Word) (n : Nat) :
    cellsText (putspCell s.params.putspEmitZeroHighNonfinal s.mem) a n = s.putspText a n :=
  List.flatMap_congr fun _ _ => s.outBytes_putspCell _

theorem State.length_putsText (s : State) (a : Word) (n : Nat) : (s.putsText a n).length = n := by
  simp [State.putsText]

/-- A lap puts out the text of the cells that it scans. -/
theorem outBytes_lapEvents_eq_cellsText (cell : Word → List Event) (m : Memory) (a : Word) :
    outBytes (lapEvents cell m a) = cellsText cell a (scanCells m lapCells a).length := by
  rw [outBytes_lapEvents, scanCells_eq_range, List.flatMap_map, ← scanCells_eq_range, cellsText]

/-- The text of fewer cells is the beginning of the text of more. -/
theorem cellsText_isPrefix (cell : Word → List Event) (a : Word) {m n : Nat} (h : m ≤ n) :
    cellsText cell a m <+: cellsText cell a n := by
  obtain ⟨d, rfl⟩ := Nat.exists_eq_add_of_le h
  rw [cellsText, cellsText, List.range_add, List.flatMap_append]
  exact List.prefix_append ..

section
variable {cell : Word → List Event} {s : State} {n : Nat}

/-- Up to the zero cell that ends it, a lap is the string's text. -/
theorem State.outBytes_lapEvents_of_zero (hn : n < 65536) (hcells : s.cellsNonzero (s.reg .r0) n)
    (hzero : s.load (s.reg .r0 + BitVec.ofNat 16 n) = 0x0000#16) :
    outBytes (lapEvents cell s.mem (s.reg .r0)) = cellsText cell (s.reg .r0) n := by
  rw [outBytes_lapEvents_eq_cellsText, scanCells_length_eq s.mem lapCells _ hn hcells hzero]

/-- Nonzero cells are in the lap, so it begins with their text. -/
theorem State.cellsText_isPrefix_lap (hn : n ≤ 65536) (hcells : s.cellsNonzero (s.reg .r0) n) :
    cellsText cell (s.reg .r0) n <+: outBytes (lapEvents cell s.mem (s.reg .r0)) := by
  rw [outBytes_lapEvents_eq_cellsText]
  exact cellsText_isPrefix cell _ (scanCells_length_ge s.mem lapCells _ hn hcells)

/-- With no zero cell the lap is the text of the whole address space. -/
theorem State.outBytes_lapEvents_of_nonzero (hmem : ∀ a, s.load a ≠ 0x0000#16) :
    outBytes (lapEvents cell s.mem (s.reg .r0)) = cellsText cell (s.reg .r0) 65536 := by
  rw [outBytes_lapEvents_eq_cellsText, scanCells_of_nonzero hmem, lapCells]

end

/-! ### How a lap ends -/

section
variable {r : Suspended} {v : BitVec 8} {lap : List Event} {fa : Word} {s : State}

theorem stringRoutine_of_end (ha : s.outAccepts (outBytes lap).length = true)
    (hend : scanEnds s.mem (s.reg .r0) = true) :
    stringRoutine r v lap fa s = (s.emit (outBytes lap)).trapReturn := by
  simp [stringRoutine, ha, hend]

theorem stringRoutine_of_no_end (ha : s.outAccepts (outBytes lap).length = true)
    (hend : scanEnds s.mem (s.reg .r0) = false) :
    stringRoutine r v lap fa s = (s.emit (outBytes lap)).suspend ⟨r, fa⟩ := by
  simp [stringRoutine, ha, hend]

theorem stringRoutine_of_fails (ha : s.outAccepts (outBytes lap).length = false) :
    stringRoutine r v lap fa s = (s.emit (outBytes lap)).consoleError fa v := by
  simp [stringRoutine, ha]

end

/-! ### A string with an end, and a failure within a string -/

section
variable {r : Suspended} {v : BitVec 8} {cell : Word → List Event} {fa : Word} {s : State} {n : Nat}
  {text : List Byte}

/-- The host accepts the text, and the routine returns. -/
theorem stringRoutine_returns (htext : cellsText cell (s.reg .r0) n = text) (hn : n < 65536)
    (hcells : s.cellsNonzero (s.reg .r0) n) (hzero : s.load (s.reg .r0 + BitVec.ofNat 16 n) = 0x0000#16)
    (ha : s.outAccepts text.length = true) :
    ∃ t, (.next (stringRoutine r v (lapEvents cell s.mem (s.reg .r0)) fa s.trapEntry) : Result) = .next t ∧
      LinksOnly s t ∧ GoesOn s t ∧
      Console (s.output ++ text) s.input (s.outRoom.map (· - text.length)) t := by
  have hlap : outBytes (lapEvents cell s.mem (s.reg .r0)) = text :=
    (State.outBytes_lapEvents_of_zero hn hcells hzero).trans htext
  rw [stringRoutine_of_end (s := s.trapEntry) (by rw [hlap]; exact ha) (scanEnds_of_zero _ hzero), hlap]
  exact ⟨_, rfl, (s.trapEntry_entered.emit ha).returns⟩

/-- The host fails within the text. -/
theorem stringRoutine_raises {k : Nat} (htext : cellsText cell (s.reg .r0) n = text) (hn : n ≤ 65536)
    (hcells : s.cellsNonzero (s.reg .r0) n) (hroom : s.outRoom = some k) (hk : k < text.length) :
    ∃ t, (.next (stringRoutine r v (lapEvents cell s.mem (s.reg .r0)) fa s.trapEntry) : Result) = .next t ∧
      LinksOnly s t ∧ Raises (.consoleIOError fa v) t ∧
      Console (s.output ++ text.take k) s.input (some 0) t := by
  obtain ⟨rest, hlap⟩ := htext ▸ State.cellsText_isPrefix_lap (cell := cell) hn hcells
  have hlong : k < (text ++ rest).length := hk.trans_le (by simp)
  rw [stringRoutine_of_fails (s := s.trapEntry) (by rw [← hlap]; exact State.outAccepts_eq_false hroom hlong),
    ← hlap, ← List.take_append_of_le_length hk.le (l₂ := rest)]
  exact ⟨_, rfl, (s.trapEntry_entered.emit_fails hroom hlong).raises _⟩

end

/-- Settles O31: the text of PUTS, one byte a cell. -/
theorem putsResult : Obligations.PutsResult := by
  unfold Obligations.PutsResult
  refine ⟨fun x => decode_trapWord x 0x22#8, fun fa s n hpc hcells => ?_⟩
  obtain rfl := State.fetchAddr_eq hpc
  have htext := s.cellsText_putsCell (s.reg .r0) n
  have hlength := s.length_putsText (s.reg .r0) n
  refine ⟨fun hn hzero ha => ?_, fun k hn hroom hk => ?_⟩
  · have hresult := stringRoutine_returns (r := .puts) (v := 0x22#8) (fa := s.fetchAddr) htext hn hcells hzero
      (by rwa [hlength])
    rw [hlength] at hresult
    exact hresult
  · exact stringRoutine_raises htext hn hcells hroom (by rwa [hlength])

/-- Settles O32: the text of PUTSP, one or two bytes a cell. -/
theorem putspResult : Obligations.PutspResult := by
  unfold Obligations.PutspResult
  refine ⟨fun x => decode_trapWord x 0x24#8, fun fa s n hpc hcells => ?_⟩
  obtain rfl := State.fetchAddr_eq hpc
  have htext := s.cellsText_putspCell (s.reg .r0) n
  refine ⟨fun hn hzero ha => ?_, fun k hn hroom hk => ?_⟩
  · exact stringRoutine_returns htext hn hcells hzero ha
  · exact stringRoutine_raises htext hn hcells hroom hk

/-! ### A string without end -/

/-- One lap of a string routine; GETC and IN have none. -/
def State.lapOf (s : State) : Suspended → List Event
  | .puts => s.putsLap
  | .putsp => s.putspLap
  | .getc => []
  | .inp => []

theorem State.outBytes_lapOf {s : State} (hmem : ∀ a, s.load a ≠ 0x0000#16) (r : Suspended) :
    outBytes (s.lapOf r) = s.lapText r := by
  cases r with
  | puts => exact (State.outBytes_lapEvents_of_nonzero hmem).trans (s.cellsText_putsCell _ _)
  | putsp => exact (State.outBytes_lapEvents_of_nonzero hmem).trans (s.cellsText_putspCell _ _)
  | getc | inp => rfl

/-- A lap's bytes depend on where it starts, on memory and on the parameters. -/
theorem State.lapText_congr {s t : State} (hr0 : t.reg .r0 = s.reg .r0) (hmem : t.mem = s.mem)
    (hparams : t.params = s.params) (r : Suspended) : t.lapText r = s.lapText r := by
  cases r with
  | puts =>
    rw [State.lapText, ← State.cellsText_putsCell, hr0, hmem, State.cellsText_putsCell]
    rfl
  | putsp =>
    rw [State.lapText, ← State.cellsText_putspCell, hr0, hmem, hparams, State.cellsText_putspCell]
    rfl
  | getc | inp => rfl

/-- The host accepts a lap that meets no zero cell, and the TRAP is left unfinished. -/
theorem stringRoutine_holds (r : Suspended) (v : BitVec 8) {fa : Word} {s : State}
    (hmem : ∀ a, s.load a ≠ 0x0000#16) (ha : s.outAccepts (s.lapText r).length = true) :
    ∃ t, (.next (stringRoutine r v (s.trapEntry.lapOf r) fa s.trapEntry) : Result) = .next t ∧
      LinksOnly s t ∧ Holds ⟨r, fa⟩ s t ∧
      Console (s.output ++ s.lapText r) s.input (s.outRoom.map (· - (s.lapText r).length)) t := by
  have hlap : outBytes (s.trapEntry.lapOf r) = s.lapText r :=
    (State.outBytes_lapOf hmem r).trans (State.lapText_congr (s.reg_trapEntry .r0) rfl rfl r)
  rw [stringRoutine_of_no_end (s := s.trapEntry) (by rw [hlap]; exact ha) (scanEnds_of_nonzero hmem _), hlap]
  exact ⟨_, rfl, (s.trapEntry_entered.emit ha).holds _⟩

/-- The unfinished PUTS or PUTSP `p`, in a memory with no zero cell. -/
structure StringWithoutEnd (p : Pending) (s : State) : Prop where
  run : s.run = .running
  pending : s.pending = some p
  isString : p.routine = .puts ∨ p.routine = .putsp
  nonzero : ∀ a, s.load a ≠ 0x0000#16

theorem resume_of_string {p : Pending} (h : p.routine = .puts ∨ p.routine = .putsp) (s : State) :
    resume p s = stringRoutine p.routine p.routine.vector (s.lapOf p.routine) p.addr s := by
  obtain ⟨r, fa⟩ := p
  obtain rfl | rfl := h <;> rfl

theorem State.suspend_of_pending {s : State} {p : Pending} (h : s.pending = some p) : s.suspend p = s := by
  rw [State.suspend, ← h]

section
variable {p : Pending} {s : State}

theorem StringWithoutEnd.emit (h : StringWithoutEnd p s) (bs : List Byte) : StringWithoutEnd p (s.emit bs) where
  run := (s.emit_run bs).trans h.run
  pending := (s.emit_pending bs).trans h.pending
  isString := h.isString
  nonzero a := (State.load_congr (s.emit_mem bs) a).symm ▸ h.nonzero a

theorem StringWithoutEnd.step_eq (h : StringWithoutEnd p s) :
    step s = .next (stringRoutine p.routine p.routine.vector (s.lapOf p.routine) p.addr s) := by
  rw [← resume_of_string h.isString]
  refine step_of_not_awaits h.run h.pending (Pending.not_awaits fun hhold => ?_)
  obtain hr | hr := h.isString <;> simp [hr] at hhold

/-- One more lap goes out, and nothing else changes. -/
theorem StringWithoutEnd.step_of_accepts (h : StringWithoutEnd p s)
    (ha : s.outAccepts (s.lapText p.routine).length = true) : step s = .next (s.emit (s.lapText p.routine)) := by
  have hlap := State.outBytes_lapOf h.nonzero p.routine
  rw [h.step_eq, stringRoutine_of_no_end (by rw [hlap]; exact ha) (scanEnds_of_nonzero h.nonzero _), hlap,
    State.suspend_of_pending (h.emit _).pending]

theorem StringWithoutEnd.step_of_fails (h : StringWithoutEnd p s)
    (ha : s.outAccepts (s.lapText p.routine).length = false) :
    step s = .next ((s.emit (s.lapText p.routine)).consoleError p.addr p.routine.vector) := by
  have hlap := State.outBytes_lapOf h.nonzero p.routine
  rw [h.step_eq, stringRoutine_of_fails (by rw [hlap]; exact ha), hlap]

/-- At a host that never fails, each step puts out the same lap (R207). -/
theorem StringWithoutEnd.runSteps_eq (h : StringWithoutEnd p s) (hroom : s.outRoom = none) (n : Nat) :
    runSteps n s = .next (s.emit (List.replicate n (s.lapText p.routine)).flatten) := by
  induction n generalizing s with
  | zero => simp [runSteps]
  | succ n ih =>
    have haccepts := State.outAccepts_none hroom (s.lapText p.routine).length
    have hroom' : (s.emit (s.lapText p.routine)).outRoom = none := by rw [State.emit_outRoom, hroom]; rfl
    have hlap : (s.emit (s.lapText p.routine)).lapText p.routine = s.lapText p.routine :=
      State.lapText_congr (State.reg_congr (s.emit_regs _) .r0) (s.emit_mem _) (s.emit_params _) _
    calc runSteps (n + 1) s
      _ = runSteps n (s.emit (s.lapText p.routine)) := by rw [runSteps, h.step_of_accepts haccepts]
      _ = .next ((s.emit (s.lapText p.routine)).emit (List.replicate n (s.lapText p.routine)).flatten) := by
        rw [ih (h.emit _) hroom', hlap]
      _ = .next (s.emit (List.replicate (n + 1) (s.lapText p.routine)).flatten) := by
        rw [← State.emit_append _ _ _ haccepts, List.replicate_succ, List.flatten_cons]

end

/-- All of the bytes are accepted: the state, written out. -/
theorem State.emit_of_accepts {s : State} {bs : List Byte} (ha : s.outAccepts bs.length = true) :
    s.emit bs = { s with output := s.output ++ bs, outRoom := s.outRoom.map (· - bs.length) } := by
  rw [← State.emit_output_of_accepts s bs ha, ← State.emit_outRoom]
  unfold State.emit
  split <;> rfl

/-- The host fails after `k` bytes: the state, written out. -/
theorem State.emit_of_fails {s : State} {bs : List Byte} {k : Nat} (hroom : s.outRoom = some k)
    (hk : k < bs.length) : s.emit bs = { s with output := s.output ++ bs.take k, outRoom := some 0 } := by
  rw [← State.emit_output_of_room s bs k hroom,
    ← State.emit_outRoom_of_not_accepts (State.outAccepts_eq_false hroom hk)]
  unfold State.emit
  split <;> rfl

/-- No byte can fail: the state, written out. -/
theorem State.emit_of_outRoom_none {s : State} (bs : List Byte) (hroom : s.outRoom = none) :
    s.emit bs = { s with output := s.output ++ bs } := by
  simp [State.emit, hroom]

/-- Settles O33: PUTS and PUTSP come to a string without end, whose every step is one more lap or its failure. -/
theorem stringWithoutEndNeverFinishes : Obligations.StringWithoutEndNeverFinishes := by
  unfold Obligations.StringWithoutEndNeverFinishes
  refine ⟨fun fa s hpc hmem => ?_, fun p s hrun hpending hstring hmem => ?_⟩
  · obtain rfl := State.fetchAddr_eq hpc
    exact ⟨stringRoutine_holds .puts 0x22#8 hmem, stringRoutine_holds .putsp 0x24#8 hmem⟩
  · have h : StringWithoutEnd p s := ⟨hrun, hpending, hstring, hmem⟩
    refine ⟨fun ha => ?_, fun k hroom hk => ?_, fun hroom n => ?_⟩
    · rw [h.step_of_accepts ha, State.emit_of_accepts ha]
    · rw [h.step_of_fails (State.outAccepts_eq_false hroom hk), State.emit_of_fails hroom hk]
      rfl
    · rw [h.runSteps_eq hroom n, State.emit_of_outRoom_none _ hroom]

end Sys2Proof.Machine
end

section
/-! The reserved opcodes RTI and RES (spec/45_reserved.md R240, R241): one account of `invalidOpcode`, used at
either opcode. -/

namespace Sys2Proof.Machine

theorem decode_rtiWord (x : BitVec 12) : decode (0b1000#4 ++ x) = .rti x := by
  rw [decode_of_rti (irOp_append _ x), irLow12_append]

theorem decode_resWord (x : BitVec 12) : decode (0b1101#4 ++ x) = .res x := by
  rw [decode_of_res (irOp_append _ x), irLow12_append]

/-- What a raised error leaves: all but the latch, HALTED and the unfinished routine (R252, R253). -/
theorem State.raise_untouched (e : ErrorRecord) (s : State) : Untouched s (s.raise e) :=
  ⟨fun _ => rfl, rfl, rfl, fun _ => rfl, rfl⟩

/-- InvalidOpcode with the whole word in its record, and no other effect (R253). -/
theorem invalidOpcode_result (op : Opcode) (low12 : BitVec 12) {fa : Word} {s : State} (hpc : s.pc = fa + 1#16) :
    Untouched s (invalidOpcode op low12 s) ∧
      Raises (.invalidOpcode fa op.bits (op.bits ++ low12)) (invalidOpcode op low12 s) ∧
      Console s.output s.input s.outRoom (invalidOpcode op low12 s) := by
  obtain rfl := State.fetchAddr_eq hpc
  exact ⟨s.raise_untouched _, ⟨rfl, rfl, rfl⟩, ⟨rfl, rfl, rfl⟩⟩

theorem exec_rti (low12 : BitVec 12) (s : State) : exec (.rti low12) s = .next (invalidOpcode .rti low12 s) := rfl

theorem exec_res (low12 : BitVec 12) (s : State) : exec (.res low12) s = .next (invalidOpcode .res low12 s) := rfl

/-- Settles O37: RTI's word reads back, and RTI is `invalidOpcode` at the opcode 0x8. -/
theorem rtiIsInvalid : Obligations.RtiIsInvalid := by
  unfold Obligations.RtiIsInvalid
  exact ⟨decode_rtiWord, fun x _ s hpc => ⟨_, exec_rti x s, invalidOpcode_result .rti x hpc⟩⟩

/-- Settles O38: RES's word reads back, and RES is `invalidOpcode` at the opcode 0xD. -/
theorem resIsInvalid : Obligations.ResIsInvalid := by
  unfold Obligations.ResIsInvalid
  exact ⟨decode_resWord, fun x _ s hpc => ⟨_, exec_res x s, invalidOpcode_result .res x hpc⟩⟩

end Sys2Proof.Machine
end

section
/-! The loader (spec/70_reset_and_hazards.md R294): what a cell reads after a run of words is written, a file's
bytes as its words, and the images in turn. -/

namespace Sys2Proof.Machine

/-! ### A run of words in memory -/

theorem Memory.read_write_same {m : Memory} (h : m.wf) (a v : Word) : (m.write a v).read a = v :=
  Memory.cellAt_putCell_same h _ v

theorem Memory.read_write_other (m : Memory) {a b : Word} (v : Word) (h : b ≠ a) :
    (m.write a v).read b = m.read b :=
  Memory.cellAt_putCell_other m v fun e => h (BitVec.eq_of_toNat_eq e)

theorem add_one_add_ofNat (a : Word) (k : Nat) : a + 1#16 + BitVec.ofNat 16 k = a + BitVec.ofNat 16 (k + 1) := by
  rw [BitVec.add_assoc, BitVec.add_comm 1#16, ← BitVec.ofNat_add]

/-- Fewer than 2^16 steps do not come back to the start. -/
theorem ne_add_ofNat_succ (a : Word) {k : Nat} (hk : k + 1 < 65536) : a ≠ a + BitVec.ofNat 16 (k + 1) := by
  bv_omega

/-- A cell that no word of the run goes to. -/
theorem Memory.read_writeWords_other {m : Memory} {a b : Word} {ws : List Word}
    (h : ∀ k, k < ws.length → b ≠ a + BitVec.ofNat 16 k) : (m.writeWords a ws).read b = m.read b := by
  induction ws generalizing m a with
  | nil => rfl
  | cons w ws ih =>
    have hfirst : b ≠ a := by simpa using h 0 (by simp)
    have hrest (k : Nat) (hk : k < ws.length) : b ≠ a + 1#16 + BitVec.ofNat 16 k := by
      rw [add_one_add_ofNat]
      exact h (k + 1) (by simpa using hk)
    calc ((m.write a w).writeWords (a + 1#16) ws).read b
      _ = (m.write a w).read b := ih hrest
      _ = m.read b := m.read_write_other w hfirst

/-- The run's `k`-th word is at `a + k`: a run no longer than memory does not write a cell twice. -/
theorem Memory.read_writeWords_at {m : Memory} (hm : m.wf) (a : Word) {ws : List Word} (hlen : ws.length ≤ 65536)
    {k : Nat} (hk : k < ws.length) : (m.writeWords a ws).read (a + BitVec.ofNat 16 k) = ws[k] := by
  induction ws generalizing m a k with
  | nil => cases hk
  | cons w ws ih =>
    rw [List.length_cons] at hlen hk
    cases k with
    | zero =>
      have hrest (j : Nat) (hj : j < ws.length) : a ≠ a + 1#16 + BitVec.ofNat 16 j := by
        rw [add_one_add_ofNat]
        exact ne_add_ofNat_succ a (by omega)
      rw [BitVec.add_zero]
      exact (Memory.read_writeWords_other hrest).trans (Memory.read_write_same hm a w)
    | succ k =>
      rw [← add_one_add_ofNat]
      exact ih (Memory.write_wf hm a w) (a + 1#16) (by omega) (by omega)

/-! ### An image -/

theorem loadImage_of_fits {img : Image} (s : State) (h : img.origin.toNat + img.words.length ≤ 65536) :
    loadImage img s = .next { s with mem := s.mem.writeWords img.origin img.words } := by
  rw [loadImage, imageFits, if_pos (decide_eq_true h)]

theorem loadImage_of_past_end {img : Image} (s : State) (h : 65536 < img.origin.toNat + img.words.length) :
    loadImage img s = .refused .imagePastEnd := by
  rw [loadImage, imageFits, decide_eq_false (Nat.not_le_of_gt h)]
  rfl

/-- Images in turn: a list after another is loaded into what the first list leaves. -/
theorem loadImages_append {imgs : List Image} (more : List Image) {s t : State} (h : loadImages imgs s = .next t) :
    loadImages (imgs ++ more) s = loadImages more t := by
  induction imgs generalizing s with
  | nil => cases h; rfl
  | cons img rest ih =>
    rw [loadImages] at h
    rw [List.cons_append, loadImages]
    cases himg : loadImage img s with
    | next u => rw [himg] at h; exact ih h
    | fault f => rw [himg] at h; cases h
    | refused r => rw [himg] at h; cases h

theorem loadImages_singleton (img : Image) (s : State) : loadImages [img] s = loadImage img s := by
  rw [loadImages]
  cases loadImage img s <;> rfl

/-! ### A file -/

theorem highByte_append_lowByte (w : Word) : highByte w ++ lowByte w = w :=
  calc (highByte w ++ lowByte w : Word)
    _ = w.extractLsb' 0 (8 + 8) := BitVec.extractLsb'_append_extractLsb'_eq_extractLsb' rfl
    _ = w := BitVec.extractLsb'_eq_self

theorem bigEndianWords_flatMap (ws : List Word) :
    bigEndianWords (ws.flatMap fun w => [highByte w, lowByte w]) = some ws := by
  induction ws with
  | nil => rfl
  | cons w ws ih =>
    rw [List.flatMap_cons, List.cons_append, List.cons_append, List.nil_append, bigEndianWords, ih,
      highByte_append_lowByte]
    rfl

theorem bigEndianWords_of_odd {bs : List Byte} (h : bs.length % 2 = 1) : bigEndianWords bs = none := by
  induction bs using bigEndianWords.induct with
  | case1 => cases h
  | case2 b => rfl
  | case3 hi lo rest ih =>
    have hrest : rest.length % 2 = 1 := by simpa [Nat.add_assoc] using h
    rw [bigEndianWords, ih hrest]
    rfl

theorem loadFile_of_words {bs : List Byte} {o : Word} {ws : List Word} (h : bigEndianWords bs = some (o :: ws))
    (s : State) : loadFile bs s = loadImage ⟨o, ws⟩ s := by
  rw [loadFile, imageOfBytes, h]

theorem loadFile_of_no_words {bs : List Byte} (h : bigEndianWords bs = none) (s : State) :
    loadFile bs s = .refused .imageLoadError := by
  rw [loadFile, imageOfBytes, h]

/-- Settles O50: the image that fits is one run of words, a file's bytes are its words or no words, and the images
are loaded in turn. -/
theorem loaderPlacesAnImage : Obligations.LoaderPlacesAnImage := by
  unfold Obligations.LoaderPlacesAnImage
  refine ⟨fun img s hmem hfits => ?_, fun img s => loadImage_of_past_end s,
    fun o ws => loadFile_of_words (bigEndianWords_flatMap (o :: ws)),
    fun bs s hodd => loadFile_of_no_words (bigEndianWords_of_odd hodd) s, fun imgs img s t h => ?_⟩
  · exact ⟨_, loadImage_of_fits s hfits, Memory.writeWords_wf hmem _ _, rfl,
      fun k hk => Memory.read_writeWords_at hmem img.origin (by omega) hk,
      fun a ha => Memory.read_writeWords_other ha⟩
  · rw [loadImages_append [img] h, loadImages_singleton]

end Sys2Proof.Machine
end
